-- ==== Sys2Proof/Word.lean ====
section
/-! DEFINITION. The bit-vector and index types of the block: what the spec itself treats as bits. -/

namespace Sys2Proof

/-- A ChannelId, "integer 0..3" (R46): the index of the four channel entries. -/
abbrev ChannelId := Fin 4

/-- A 4-bit field or code (R63, R72): a nibble of the message. -/
abbrev Nibble := BitVec 4

/-- A 2-bit ComboDirect code (R73). -/
abbrev DirectCode := BitVec 2

/-- The 16-bit wire frame `f1 ++ f2 ++ f3 ++ f4` (R64). -/
abbrev Frame := BitVec 16

/-- The 14 bits of `t`, the tu elapsed since the start of a slot (R20, R31). -/
abbrev SlotTime := BitVec 14

end Sys2Proof
end

