-- ==== Sys2Proof/Config.lean ====
section
/-! DEFINITION. The build-time parameters that the spec leaves open (R12). Their values for this machine, and the
constants that the spec fixes (R11), are in Machine/Params.lean. -/

namespace Sys2Proof

/-- The parameters of R12. They are fixed at build time and are no state (R36, R37): the operations that read them take
this record as an argument. `markCyclesLess1` is `MARK_CYCLES − 1`, so that exactly the configurations `MARK_CYCLES` =
1..11 exist; every other one is refused (U7, R122; `Params.build`). `SUBMODE_CSTID` is always the complement of
`SUBMODE_PWM` and is not stored. -/
structure Params where
  markCyclesLess1 : Fin 11
  roundMarginTu : Nat
  submodePwm : Bool
  cstidFullForward : Nibble
  cstidFullBackward : Nibble
  setCmdResetsRepeat : Bool
  deriving DecidableEq, Repr

/-- `ROUND_MARGIN_TU`, "OPEN parameter, no default" (R12, R153, D7): a free value. Nothing can be proved of it but what
holds of every natural number, 0 included (log 5). -/
opaque Config.roundMarginTu : Nat

end Sys2Proof
end

