-- ==== Sys2Proof/Machine/Params.lean ====
section
/-! DEFINITION. The constants that the spec fixes (R11), the derived durations (R13), and the parameter values of this
machine (R12). -/

namespace Sys2Proof

/-- `N_CHANNELS` (R11). -/
def Config.nChannels : Nat := 4

/-- `CYCLE_TU`: one carrier cycle (R11, R111). -/
def Config.cycleTu : Nat := 26

/-- `HALF_CYCLE_TU = CYCLE_TU / 2` (R11, R111). -/
def Config.halfCycleTu : Nat := 13

/-- `PAUSE_START_STOP`, in cycles (R11). -/
def Config.pauseStartStop : Nat := 39

/-- `PAUSE_ONE`, in cycles (R11). -/
def Config.pauseOne : Nat := 21

/-- `PAUSE_ZERO`, in cycles (R11). -/
def Config.pauseZero : Nat := 10

/-- `MSG_TU`: the fixed duration of one channel slot (R11, R120). -/
def Config.msgTu : Nat := 16000

/-- `REPEAT_QUOTA` (R11). -/
def Config.repeatQuota : Nat := 5

/-- `LRC_SEED` (R11, R102). -/
def Config.lrcSeed : Nibble := 0xF

/-- `ADDRESS_BIT`, "always zero" (R11, R47). -/
def Config.addressBit : Bool := false

/-- `FRAME_BITS` (R11). -/
def Config.frameBits : Nat := 16

/-- `TOGGLE_RESET` (R12, R39). -/
def Config.toggleReset : Bool := false

/-- `MARK_CYCLES` (R12). -/
def Params.markCycles (P : Params) : Nat := P.markCyclesLess1.val + 1

/-- `MARK_TU = MARK_CYCLES × CYCLE_TU` (R13). -/
def Params.markTu (P : Params) : Nat := P.markCycles * Config.cycleTu

/-- `SUBMODE_CSTID`, "always `1 − SUBMODE_PWM`" (R12). -/
def Params.submodeCstid (P : Params) : Bool := !P.submodePwm

/-- `ROUND_TU = N_CHANNELS × MSG_TU + ROUND_MARGIN_TU` (R13, R154). -/
def Params.roundTu (P : Params) : Nat := Config.nChannels * Config.msgTu + P.roundMarginTu

/-- A configuration built from a value of `MARK_CYCLES`, the other parameters being those of `P`. Outside 1..11 the
configuration is refused (U7, R122). -/
def Params.build (P : Params) (markCycles : Nat) : Option Params :=
  if h : 1 ≤ markCycles ∧ markCycles ≤ 11 then
    some { P with markCyclesLess1 := ⟨markCycles - 1, by omega⟩ }
  else
    none

/-- The parameters of this machine: the spec's defaults and decisions (R12), and a free `ROUND_MARGIN_TU`. PRESUMED:
`MARK_CYCLES` = 6, `SUBMODE_PWM` = 0 and the two CSTID codes are the spec's own defaults, which it marks "from general
knowledge, not in source" (unsafe; log 6, 7, 8). DESIGN CHOICE: `SETCMD_RESETS_REPEAT` = false is the spec's decision
D12 (unsafe; log 9). -/
def Config.params : Params :=
  { markCyclesLess1 := 5
    roundMarginTu := Config.roundMarginTu
    submodePwm := false
    cstidFullForward := 6
    cstidFullBackward := 7
    setCmdResetsRepeat := false }

end Sys2Proof
end

