-- ==== Sys2Proof/Syntax.lean ====
section
/-! DEFINITION. The syntax: the operations of the opcode table, the stored commands, the symbols of the wire, the
values of the input port, and the forms in which an operation is encoded. -/

namespace Sys2Proof

/-- One constructor for each row of the opcode table (R87): the six operations of `PFT-OPS` (R82), the slot of an Idle
channel, and the micro-operations of the serializer. The numeric operands are the integers of the API (R46, R82), whose
ranges `Instr.WellFormed` tests; invert flags are booleans ("invertA=false", R82). -/
inductive Instr where
  /-- `SET_EXTENDED c, d` (R97). -/
  | setExtended (c d : Nat)
  /-- `SET_COMBO_DIRECT c, a, ia, b, ib` (R98). -/
  | setComboDirect (c a : Nat) (ia : Bool) (b : Nat) (ib : Bool)
  /-- `SET_COMBO_PWM c, a, ia, b, ib` (R99). -/
  | setComboPwm (c a : Nat) (ia : Bool) (b : Nat) (ib : Bool)
  /-- `SET_SINGLE_PWM c, sel, p, inv` (R100). -/
  | setSinglePwm (c sel p : Nat) (inv : Bool)
  /-- `SET_SINGLE_CSTID c, sel, d` (R101). -/
  | setSingleCstid (c sel d : Nat)
  /-- `TRANSMIT_ROUND` (R151). -/
  | transmitRound
  /-- The slot of a channel with no pending command (R118). -/
  | idleSlot
  /-- The carrier burst (R112). -/
  | mark
  /-- The start/stop symbol (R115). -/
  | startStop
  /-- The symbol of a payload bit 1 (R116). -/
  | bit1
  /-- The symbol of a payload bit 0 (R117). -/
  | bit0
  /-- The final pause of a slot (R119). -/
  | pad
  deriving DecidableEq, Repr

/-- A stored command (R22): "a tagged sum with exactly five variants", each with the operands it needs, which are the
protocol codes after inversion. -/
inductive Cmd where
  | extended (d : Nibble)
  | comboDirect (a b : DirectCode)
  | comboPwm (a b : Nibble)
  | singlePwm (sel : BitVec 1) (p : Nibble)
  | singleCstid (sel : BitVec 1) (d : Nibble)
  deriving DecidableEq, Repr

/-- The three symbols of the wire (R78). -/
inductive Symbol where
  | startStop
  | one
  | zero
  deriving DecidableEq, Repr

/-- The inputs of the block as they stand at one rising edge of the clock: the command port and the round trigger (R80)
and reset (R200). -/
structure Pins where
  rst : Bool
  cmdValid : Bool
  cmdChannel : BitVec 2
  cmdKind : BitVec 3
  cmdA : BitVec 4
  cmdB : BitVec 4
  cmdInvA : Bool
  cmdInvB : Bool
  cmdSel : BitVec 1
  roundStart : Bool
  deriving DecidableEq, Repr

/-- Every input at 0: the caller presents nothing. -/
def Pins.idle : Pins :=
  { rst := false, cmdValid := false, cmdChannel := 0, cmdKind := 0, cmdA := 0, cmdB := 0, cmdInvA := false,
    cmdInvB := false, cmdSel := 0, roundStart := false }

/-- The form in which the table gives one operation. The operations of `PFT-OPS` are presented at the port (R80, R82);
a symbol is a mark and a pause, both counted in carrier cycles (R78; the mark alone has no pause); the pad and the slot
of an Idle channel are a low line with no mark (R79), the latter for a whole slot. -/
inductive Code where
  | port (p : Pins)
  | symbol (markCycles pauseCycles : Nat)
  | lowLine (wholeSlot : Bool)
  deriving DecidableEq, Repr

/-- Why the decoder rejects. -/
inductive Reject where
  /-- `cmd_kind` 5, 6 or 7 "presents no command of the API" (R81, U3). -/
  | notACommand
  /-- The port presents neither a command write nor a round start. -/
  | noOperation
  /-- The port presents a command write and a round start together: two operations, which one edge runs in order. -/
  | twoOperations
  /-- The port is held in reset, which overrides what else is presented (R200). -/
  | resetAsserted
  /-- A frame "this block never produces": address bit set (R84 a). -/
  | addressBitSet
  /-- A frame "this block never produces": wire mode 2 or 3 (R84 b, U8). -/
  | modeNeverProduced
  /-- A burst whose mark has not `MARK_CYCLES` cycles, or whose pause is none of 39, 21, 10 and 0 (R78). -/
  | notASymbol
  deriving DecidableEq, Repr

end Sys2Proof
end

