-- ==== Sys2Proof/Machine/State.lean ====
section
/-! DEFINITION. The state of the block (R20) with two fields of the model's own, its value after reset (R39), and the
reasons for which a step can stop. -/

namespace Sys2Proof.Machine

/-- The sequencer phase (R20, R28). -/
inductive Phase where
  | idle
  | slot
  | margin
  deriving DecidableEq, Repr

/-- A ChannelState entry (R21): `armed`, `cmd`, `toggle` and `repeat`, the last under the name `sends`. -/
structure ChannelState where
  armed : Bool
  cmd : Cmd
  toggle : Bool
  sends : BitVec 3
  deriving DecidableEq, Repr

/-- A stretch of the output line at one level: `emit(level, n)` of R18. -/
structure Run where
  level : Bool
  len : Nat
  deriving DecidableEq, Repr

/-- The complete state of the block (R20). Two fields are the model's own and not the block's: `inputs`, the port values
at the coming clock edges, the next one first (log 2), and `line`, the waveform of the round in progress or last ended,
the newest run first (log 3). -/
structure State where
  chan : Vector ChannelState 4
  phase : Phase
  ch : ChannelId
  t : SlotTime
  m : Nat
  frame : Option Frame
  shadow : Vector (Option Cmd) 4
  inputs : List Pins
  line : List Run
  deriving DecidableEq, Repr

/-- A fault would be a stop that the block itself reports. It has none: "The block raises no exception, trap or fault
of any kind" (R175), so this type has no constructor. -/
inductive Fault
  deriving DecidableEq, Repr

/-- Why the model gives an operation no meaning. All are safe: the model stops where the spec defines nothing. -/
inductive Refusal where
  /-- The instruction has no meaning in the model yet; raised by `exec`'s arms only. Safe. -/
  | notModelled (mnemonic : String)
  /-- U1: a ChannelId outside 0..3 at the API, "undefined behavior, not a reported fault" (R46); raised by the five
  command operations. Safe. -/
  | channelOutOfRange
  /-- U2: a code or outputSelect outside its enumerated range (R81, R177); raised by the five command operations. Safe. -/
  | codeOutOfRange
  /-- U3: `cmd_valid = 1` with `cmd_kind` 5, 6 or 7 (R81); raised by the clock edge. Safe. -/
  | notACommand
  deriving DecidableEq, Repr

/-- An entry after reset (R39): Idle, toggle `TOGGLE_RESET`, counter 0. DESIGN CHOICE: `cmd` is `Extended(0)`, since the
spec leaves it unspecified (unsafe; log 1). -/
def ChannelState.reset : ChannelState :=
  { armed := false, cmd := .extended 0, toggle := Config.toggleReset, sends := 0 }

/-- The machine after reset (R39). -/
def State.reset : State :=
  { chan := #v[ChannelState.reset, ChannelState.reset, ChannelState.reset, ChannelState.reset]
    phase := .idle
    ch := 0
    t := 0
    m := 0
    frame := none
    shadow := #v[none, none, none, none]
    inputs := []
    line := [] }

end Sys2Proof.Machine
end

