-- ==== Sys2Proof/WellFormed.lean ====
section
/-! DEFINITION. Which operands an operation may have: the enumerated ranges of the API (R46, R81, R177). -/

namespace Sys2Proof

/-- "channel id must be 0–3" (R46). -/
def channelInRange (c : Nat) : Bool := decide (c < 4)

/-- A ComboDirect code is 2 bits (R73, R81). -/
def directInRange (a : Nat) : Bool := decide (a < 4)

/-- PWM codes, Extended codes and CSTID codes "span a 4-bit range" (R81). -/
def nibbleInRange (a : Nat) : Bool := decide (a < 16)

/-- outputSelect is one bit (R76). -/
def selectInRange (sel : Nat) : Bool := decide (sel < 2)

/-- Every operand lies in its range. An operation for which this fails is "undefined behavior, not a reported fault"
(R177); `exec` refuses it by name (U1, U2). -/
def Instr.WellFormed : Instr → Bool
  | .setExtended c d => channelInRange c && nibbleInRange d
  | .setComboDirect c a _ b _ => channelInRange c && directInRange a && directInRange b
  | .setComboPwm c a _ b _ => channelInRange c && nibbleInRange a && nibbleInRange b
  | .setSinglePwm c sel p _ => channelInRange c && selectInRange sel && nibbleInRange p
  | .setSingleCstid c sel d => channelInRange c && selectInRange sel && nibbleInRange d
  | .transmitRound => true
  | .idleSlot => true
  | .mark => true
  | .startStop => true
  | .bit1 => true
  | .bit0 => true
  | .pad => true

end Sys2Proof
end

