-- ==== Sys2Proof/Machine/Operands.lean ====
section
/-! DEFINITION. Operands: inversion (R92 to R94), and the stored command that each of the five command operations forms
from its operands (R97 to R101). -/

namespace Sys2Proof.Machine

/-- `invert_pwm(x) = (16 − x) mod 16` (R92). -/
def invertPwm (x : Nibble) : Nibble := BitVec.ofNat 4 ((16 - x.toNat) % 16)

/-- `invert_direct(x) = x[0] ++ x[1]` (R93). -/
def invertDirect (x : DirectCode) : DirectCode := x.extractLsb' 0 1 ++ x.extractLsb' 1 1

/-- "An inversion flag of 0 (false) leaves the code unchanged; a flag of 1 applies the function once" (R94). -/
def pwmOperand (inv : Bool) (x : Nibble) : Nibble := if inv then invertPwm x else x

/-- The same for a ComboDirect code (R94, R98). -/
def directOperand (inv : Bool) (x : DirectCode) : DirectCode := if inv then invertDirect x else x

/-- The channel an integer names, if it is 0..3 (R46). -/
def channelOf (c : Nat) : Option ChannelId := if h : c < 4 then some ⟨c, h⟩ else none

/-- The 2-bit ComboDirect code an integer names, if in range (R73, R81). -/
def directOf (a : Nat) : Option DirectCode := if directInRange a then some (BitVec.ofNat 2 a) else none

/-- The 4-bit code an integer names, if in range (R72, R81). -/
def nibbleOf (a : Nat) : Option Nibble := if nibbleInRange a then some (BitVec.ofNat 4 a) else none

/-- The outputSelect bit an integer names, if in range (R76). -/
def selectOf (sel : Nat) : Option (BitVec 1) := if selectInRange sel then some (BitVec.ofNat 1 sel) else none

/-- The command that `SET_EXTENDED` stores (R97); `none` if the code is out of range. -/
def extendedCmd (d : Nat) : Option Cmd := (nibbleOf d).map .extended

/-- The command that `SET_COMBO_DIRECT` stores (R98). -/
def comboDirectCmd (a : Nat) (ia : Bool) (b : Nat) (ib : Bool) : Option Cmd :=
  match directOf a, directOf b with
  | some a, some b => some (.comboDirect (directOperand ia a) (directOperand ib b))
  | _, _ => none

/-- The command that `SET_COMBO_PWM` stores (R99). -/
def comboPwmCmd (a : Nat) (ia : Bool) (b : Nat) (ib : Bool) : Option Cmd :=
  match nibbleOf a, nibbleOf b with
  | some a, some b => some (.comboPwm (pwmOperand ia a) (pwmOperand ib b))
  | _, _ => none

/-- The command that `SET_SINGLE_PWM` stores (R100). -/
def singlePwmCmd (sel p : Nat) (inv : Bool) : Option Cmd :=
  match selectOf sel, nibbleOf p with
  | some sel, some p => some (.singlePwm sel (pwmOperand inv p))
  | _, _ => none

/-- The command that `SET_SINGLE_CSTID` stores (R101). -/
def singleCstidCmd (sel d : Nat) : Option Cmd :=
  match selectOf sel, nibbleOf d with
  | some sel, some d => some (.singleCstid sel d)
  | _, _ => none

end Sys2Proof.Machine
end

