-- ==== Sys2Proof/Machine/Access.lean ====
section
/-! DEFINITION. The reads of the two indexed pieces of state, and their writes. -/

namespace Sys2Proof.Machine

/-- `chan[c]` (R18, R21). -/
def entry (s : State) (c : ChannelId) : ChannelState := s.chan[c]

/-- `shadow[c]` (R32). -/
def held (s : State) (c : ChannelId) : Option Cmd := s.shadow[c]

/-- `chan[c] <- e`; the other entries stay (R21). -/
def setChan (c : ChannelId) (e : ChannelState) (s : State) : State := { s with chan := s.chan.set c e }

/-- `shadow[c] <- x`; the other entries stay (R32). -/
def setShadow (c : ChannelId) (x : Option Cmd) (s : State) : State := { s with shadow := s.shadow.set c x }

end Sys2Proof.Machine
end

