-- ==== Sys2Proof/Machine/Flags.lean ====
section
/-! DEFINITION. The one-bit conditions that rules read (R33), and the outputs that are functions of them: `busy` and the
status view (R34, R35). -/

namespace Sys2Proof.Machine

/-- Escape: "1 iff the pending command is `ComboPWM`" (R33, R96). -/
def escape : Cmd → Bool
  | .extended _ => false
  | .comboDirect _ _ => false
  | .comboPwm _ _ => true
  | .singlePwm _ _ => false
  | .singleCstid _ _ => false

/-- `is_continuous(v)` (R133). A command for which it is false is repeat-limited. -/
def isContinuous (P : Params) : Cmd → Bool
  | .extended _ => false
  | .comboDirect _ _ => true
  | .comboPwm _ _ => true
  | .singlePwm _ _ => false
  | .singleCstid _ d => d == P.cstidFullForward || d == P.cstidFullBackward

/-- `busy = (phase ≠ IDLE)` (R34). -/
def busy (s : State) : Bool := !decide (s.phase = .idle)

/-- The status view `st_armed[c]` (R35). -/
def stArmed (s : State) (c : ChannelId) : Bool := (entry s c).armed

/-- The status view `st_toggle[c]` (R35). -/
def stToggle (s : State) (c : ChannelId) : Bool := (entry s c).toggle

/-- The status view `st_repeat[c]`, 3 bits (R35). -/
def stRepeat (s : State) (c : ChannelId) : BitVec 3 := (entry s c).sends

end Sys2Proof.Machine
end

