-- ==== Sys2Proof/Machine/Ops.lean ====
section
/-! DEFINITION. The named operations over the state: the write of a channel entry, the command write and its intake
(R131, R159, R165), the advance (R135), the end of a round (R166), the reset edge (R200), and the output line (R18). The
block takes no exception and returns from none (R175, R183, R184), so there is no operation for either. -/

namespace Sys2Proof.Machine

/-! ### Channel entries -/

/-- What `command_write` makes of the addressed entry (R131): armed with the new command; `toggle` is not written,
`repeat` only if `SETCMD_RESETS_REPEAT` (R132). -/
def writeEntry (P : Params) (v : Cmd) (e : ChannelState) : ChannelState :=
  { e with cmd := v, armed := true, sends := if P.setCmdResetsRepeat then 0 else e.sends }

/-- `command_write(c, v)` (R131): one indivisible update of one entry (R52). -/
def commandWrite (P : Params) (c : ChannelId) (v : Cmd) (s : State) : State :=
  setChan c (writeEntry P v (entry s c)) s

/-- The intake of a command write: into `chan` when no round is in progress (R159), else into `shadow`, replacing what
that entry held (R165). -/
def intake (P : Params) (c : ChannelId) (v : Cmd) (s : State) : State :=
  if s.phase = .idle then commandWrite P c v s else setShadow c (some v) s

/-- What the advance makes of the entry of the channel just sent (R135, R136): nothing of an Idle channel or a
continuous command; else one more send is counted, and the fifth closes the command, flips the toggle and zeroes the
counter. -/
def advanceEntry (P : Params) (e : ChannelState) : ChannelState :=
  if !e.armed then e
  else if isContinuous P e.cmd then e
  else if e.sends.toNat + 1 = Config.repeatQuota then { e with armed := false, toggle := !e.toggle, sends := 0 }
  else { e with sends := BitVec.ofNat 3 (e.sends.toNat + 1) }

/-- `advance(c)` (R135): it touches the entry of `c` alone (R142). -/
def advance (P : Params) (c : ChannelId) (s : State) : State := setChan c (advanceEntry P (entry s c)) s

/-! ### The end of a round, and reset -/

/-- The held write of one channel, if there is one, is applied and the shadow entry emptied (R166). -/
def commitShadow (P : Params) (c : ChannelId) (s : State) : State :=
  match held s c with
  | some v => setShadow c none (commandWrite P c v s)
  | none => s

/-- The round ends (R166): the sequencer returns to IDLE and every held write is applied. -/
def roundEnd (P : Params) (s : State) : State :=
  commitShadow P 3 (commitShadow P 2 (commitShadow P 1 (commitShadow P 0
    { s with phase := .idle, ch := 0, t := 0, m := 0, frame := none })))

/-- The edge at which `rst = 1` (R200, R202): every element of the block takes its reset value. What the caller presents
at later edges is not the block's and stays. -/
def resetEdge (s : State) : State := { State.reset with inputs := s.inputs }

/-! ### The output line -/

/-- A waveform followed by `n` tu at `level`. The list is kept in one form for each waveform: no run of length 0, no two
neighbours of one level ("two waveforms are equal when those functions are equal, whatever the split", R18). -/
def extendLine (level : Bool) (n : Nat) (line : List Run) : List Run :=
  if n = 0 then line
  else
    match line with
    | [] => [⟨level, n⟩]
    | r :: rest => if r.level = level then ⟨level, r.len + n⟩ :: rest else ⟨level, n⟩ :: r :: rest

/-- How many tu a waveform lasts. -/
def lineLength (line : List Run) : Nat := (line.map Run.len).sum

/-- The level of a waveform at the time `τ`, counted from its start (R18); 0 outside it. -/
def levelAt (line : List Run) (τ : Nat) : Bool :=
  match line with
  | [] => false
  | r :: rest => if τ < lineLength rest then levelAt rest τ else decide (τ < lineLength rest + r.len) && r.level

/-- The waveform is in its one form. -/
def lineWf : List Run → Bool
  | [] => true
  | [r] => decide (0 < r.len)
  | r :: q :: rest => decide (0 < r.len) && (r.level != q.level) && lineWf (q :: rest)

/-- `emit(level, n)` (R18): the line holds `level` for `n` tu, and `elapsed`, which is the 14-bit `t` (R20, R31), grows by
`n`. -/
def emit (level : Bool) (n : Nat) (s : State) : State :=
  { s with t := s.t + BitVec.ofNat 14 n, line := extendLine level n s.line }

/-! ### The caller's port values -/

/-- The inputs at the coming edge; a caller whose list is at its end presents nothing (log 2). -/
def nextPins (s : State) : Pins :=
  match s.inputs with
  | [] => Pins.idle
  | p :: _ => p

/-- The inputs of the coming edge are over. -/
def dropPins (s : State) : State := { s with inputs := s.inputs.tail }

end Sys2Proof.Machine
end

