-- ==== Sys2Proof/Machine/Commands.lean ====
section
/-! DEFINITION. The five command operations (R97 to R101). -/

namespace Sys2Proof.Machine

/-- What the five share: the write of the stored command into the addressed channel (R131, R159, R165), refused when the
channel (U1) or a code (U2) is out of range. -/
def issue (P : Params) (c : Nat) (v : Option Cmd) (s : State) : Host.Outcome State Fault Refusal :=
  match channelOf c, v with
  | none, _ => .refused .channelOutOfRange
  | some _, none => .refused .codeOutOfRange
  | some c, some v => .next (intake P c v s)

/-- `SET_EXTENDED c, d` (R97). -/
def execSetExtended (c d : Nat) (s : State) : Host.Outcome State Fault Refusal :=
  issue Config.params c (extendedCmd d) s

/-- `SET_COMBO_DIRECT c, a, ia, b, ib` (R98). -/
def execSetComboDirect (c a : Nat) (ia : Bool) (b : Nat) (ib : Bool) (s : State) :
    Host.Outcome State Fault Refusal :=
  issue Config.params c (comboDirectCmd a ia b ib) s

/-- `SET_COMBO_PWM c, a, ia, b, ib` (R99). -/
def execSetComboPwm (c a : Nat) (ia : Bool) (b : Nat) (ib : Bool) (s : State) :
    Host.Outcome State Fault Refusal :=
  issue Config.params c (comboPwmCmd a ia b ib) s

/-- `SET_SINGLE_PWM c, sel, p, inv` (R100). -/
def execSetSinglePwm (c sel p : Nat) (inv : Bool) (s : State) : Host.Outcome State Fault Refusal :=
  issue Config.params c (singlePwmCmd sel p inv) s

/-- `SET_SINGLE_CSTID c, sel, d` (R101). -/
def execSetSingleCstid (c sel d : Nat) (s : State) : Host.Outcome State Fault Refusal :=
  issue Config.params c (singleCstidCmd sel d) s

end Sys2Proof.Machine
end

