-- ==== Sys2Proof/Decode.lean ====
section
/-! DEFINITION. Decoding and encoding, in the three forms the spec gives (R16): the command port (R80 to R82), the wire
frame (R63 to R71, R86) and the symbols (R78, R79); and the table words of the host's interface. -/

namespace Sys2Proof

/-! ### The command port -/

/-- The command that the port presents (R80, R82); meant for `cmd_valid = 1`. The operands are taken as they stand: a
ComboDirect code with a nonzero upper bit gives an operation that is not well formed (R81, U2). -/
def decodeCommand (p : Pins) : Except Reject Instr :=
  if p.cmdKind = 0 then .ok (.setExtended p.cmdChannel.toNat p.cmdA.toNat)
  else if p.cmdKind = 1 then
    .ok (.setComboDirect p.cmdChannel.toNat p.cmdA.toNat p.cmdInvA p.cmdB.toNat p.cmdInvB)
  else if p.cmdKind = 2 then
    .ok (.setComboPwm p.cmdChannel.toNat p.cmdA.toNat p.cmdInvA p.cmdB.toNat p.cmdInvB)
  else if p.cmdKind = 3 then
    .ok (.setSinglePwm p.cmdChannel.toNat p.cmdSel.toNat p.cmdA.toNat p.cmdInvA)
  else if p.cmdKind = 4 then .ok (.setSingleCstid p.cmdChannel.toNat p.cmdSel.toNat p.cmdA.toNat)
  else .error .notACommand

/-- The one operation that a port value presents: a command write, or a round start. Nothing, two operations at once
and reset are no single operation and are rejected by name; `edge` (Machine/Edge.lean) runs all of them. -/
def decodePort (p : Pins) : Except Reject Instr :=
  if p.rst then .error .resetAsserted
  else if p.cmdValid then
    if p.roundStart then .error .twoOperations else decodeCommand p
  else if p.roundStart then .ok .transmitRound
  else .error .noOperation

/-! ### The wire frame -/

/-- Bits 13:12, 11:8, 7:4 and 3:0 of a frame (R64, R65). -/
def frameChannel (F : Frame) : BitVec 2 := F.extractLsb' 12 2
/-- Field 1 (R64). -/
def field1 (F : Frame) : Nibble := F.extractLsb' 12 4
/-- Field 2 (R64). -/
def field2 (F : Frame) : Nibble := F.extractLsb' 8 4
/-- Field 3 (R64). -/
def field3 (F : Frame) : Nibble := F.extractLsb' 4 4
/-- Field 4 (R64). -/
def field4 (F : Frame) : Nibble := F.extractLsb' 0 4

/-- The frame decode tree (R71, R86), for either value of the sub-mode parameters (R67). "The operands recovered this
way are the stored, post-inversion codes", so the invert flags are 0. The toggle bit `F[15]` and the checksum `F[3:0]`
are no operands; the tree does not test them (log 16), `checksumOk` does. -/
def decodeFrame (P : Params) (F : Frame) : Except Reject Instr :=
  if F.getLsbD 14 then
    .ok (.setComboPwm (frameChannel F).toNat (field3 F).toNat false (field2 F).toNat false)
  else if F.getLsbD 11 then .error .addressBitSet
  else if F.getLsbD 10 then
    if F.getLsbD 9 = P.submodePwm then
      .ok (.setSinglePwm (frameChannel F).toNat (F.extractLsb' 8 1).toNat (field3 F).toNat false)
    else
      .ok (.setSingleCstid (frameChannel F).toNat (F.extractLsb' 8 1).toNat (field3 F).toNat)
  else if F.getLsbD 9 then .error .modeNeverProduced
  else if F.getLsbD 8 then
    .ok (.setComboDirect (frameChannel F).toNat (F.extractLsb' 4 2).toNat false (F.extractLsb' 6 2).toNat false)
  else
    .ok (.setExtended (frameChannel F).toNat (field3 F).toNat)

/-- The checksum field is right: `f4 = 0xF ^ f1 ^ f2 ^ f3` (R70). -/
def checksumOk (F : Frame) : Bool := field4 F == (Config.lrcSeed ^^^ field1 F ^^^ field2 F ^^^ field3 F)

/-- The frames this block can put on the wire: all but those of R84 (a), (b) and (c). -/
def producible (F : Frame) : Bool :=
  (F.getLsbD 14 || (!F.getLsbD 11 && (F.getLsbD 10 || !F.getLsbD 9))) && checksumOk F

/-! ### The symbols, and decoding as a whole -/

/-- A mark of `m` cycles and a pause of `n` cycles (R78); the mark alone is the micro-operation `MARK` (R112). -/
def decodeSymbol (P : Params) (m n : Nat) : Except Reject Instr :=
  if m = P.markCycles then
    if n = 0 then .ok .mark
    else if n = Config.pauseStartStop then .ok .startStop
    else if n = Config.pauseOne then .ok .bit1
    else if n = Config.pauseZero then .ok .bit0
    else .error .notASymbol
  else .error .notASymbol

/-- The decoder: total, rejecting by name. -/
def decode (P : Params) : Code → Except Reject Instr
  | .port p => decodePort p
  | .symbol m n => decodeSymbol P m n
  | .lowLine wholeSlot => .ok (if wholeSlot then .idleSlot else .pad)

/-- The port values that present a command of kind `kind` (R80, R82); signals the kind ignores are 0. DESIGN CHOICE: an
operand that its signal cannot carry has no port value in the spec (U1: "At pin level the case cannot be presented"; U2);
this total function then gives the signal the operand's low bits, so that channel 4 is written as channel 0. That is the
port value of another operation and no meaning of this one, which `exec` refuses (log 24). -/
def commandPins (kind : BitVec 3) (c a b : Nat) (ia ib : Bool) (sel : Nat) : Pins :=
  { Pins.idle with
    cmdValid := true, cmdChannel := BitVec.ofNat 2 c, cmdKind := kind, cmdA := BitVec.ofNat 4 a,
    cmdB := BitVec.ofNat 4 b, cmdInvA := ia, cmdInvB := ib, cmdSel := BitVec.ofNat 1 sel }

/-- The encoder (R78, R79, R82). The spec gives a code to well-formed operations only; for
others see `commandPins` (log 24). -/
def encode (P : Params) : Instr → Code
  | .setExtended c d => .port (commandPins 0 c d 0 false false 0)
  | .setComboDirect c a ia b ib => .port (commandPins 1 c a b ia ib 0)
  | .setComboPwm c a ia b ib => .port (commandPins 2 c a b ia ib 0)
  | .setSinglePwm c sel p inv => .port (commandPins 3 c p 0 inv false sel)
  | .setSingleCstid c sel d => .port (commandPins 4 c d 0 false false sel)
  | .transmitRound => .port { Pins.idle with roundStart := true }
  | .idleSlot => .lowLine true
  | .mark => .symbol P.markCycles 0
  | .startStop => .symbol P.markCycles Config.pauseStartStop
  | .bit1 => .symbol P.markCycles Config.pauseOne
  | .bit0 => .symbol P.markCycles Config.pauseZero
  | .pad => .lowLine false

/-! ### Table words -/

/-- The instruction read from a word of the opcode table. A 16-bit word is a wire frame, decoded by `decodeFrame`. The
rows without a wire pattern have no word, but for two to which the table (not the spec's text) gives one operand bit and
no fixed bit: every word of that width, 8 bits for `IDLE_SLOT` and 24 bits for `BIT1`, is read as that row (log 13). -/
def decodeTableWord (nbits w : Nat) : Option Instr :=
  if nbits = 16 then
    match decodeFrame Config.params (BitVec.ofNat 16 w) with
    | .ok i => some i
    | .error _ => none
  else if nbits = 8 then some .idleSlot
  else if nbits = 24 then some .bit1
  else none

end Sys2Proof
end

