-- ==== Sys2Proof/Machine/Encoder.lean ====
section
/-! DEFINITION. The NibbleEncoder (R90 to R104): the field multiplexer, the checksum and the frame. -/

namespace Sys2Proof.Machine

/-- A boolean as one bit. -/
def bit (b : Bool) : BitVec 1 := BitVec.ofBool b

/-- Field 1, in every mode: `f1 = tg ++ esc ++ c[1:0]` (R65, R96). -/
def f1Of (v : Cmd) (tg : Bool) (c : ChannelId) : Nibble := bit tg ++ bit (escape v) ++ BitVec.ofNat 2 c.val

/-- Field 2 (R66 to R68, R95): the address bit and the mode selector, or in the escape layout output B's code. -/
def f2Of (P : Params) : Cmd → Nibble
  | .extended _ => bit Config.addressBit ++ 0b000#3
  | .comboDirect _ _ => bit Config.addressBit ++ 0b001#3
  | .comboPwm _ b => b
  | .singlePwm sel _ => bit Config.addressBit ++ 1#1 ++ bit P.submodePwm ++ sel
  | .singleCstid sel _ => bit Config.addressBit ++ 1#1 ++ bit P.submodeCstid ++ sel

/-- Field 3 (R69, R95). -/
def f3Of : Cmd → Nibble
  | .extended d => d
  | .comboDirect a b => b ++ a
  | .comboPwm a _ => a
  | .singlePwm _ p => p
  | .singleCstid _ d => d

/-- The checksum, `0xF ^ f1 ^ f2 ^ f3` (R102). -/
def checksum (f1 f2 f3 : Nibble) : Nibble := Config.lrcSeed ^^^ f1 ^^^ f2 ^^^ f3

/-- The encoder as a function: `encode(v, tg, c)` returns `F = f1 ++ f2 ++ f3 ++ f4` (R90, R103). -/
def encodeFrame (P : Params) (v : Cmd) (tg : Bool) (c : ChannelId) : Frame :=
  f1Of v tg c ++ f2Of P v ++ f3Of v ++ checksum (f1Of v tg c) (f2Of P v) (f3Of v)

/-- The frame of a slot (R134, R104): that of the pending command, or none for an Idle channel. -/
def frameOf (P : Params) (c : ChannelId) (s : State) : Option Frame :=
  if (entry s c).armed then some (encodeFrame P (entry s c).cmd (entry s c).toggle c) else none

end Sys2Proof.Machine
end

