-- ==== Sys2Proof/Machine/Serializer.lean ====
section
/-! DEFINITION. The BitTransmitter (R110 to R126): the micro-operations, the slot built from them, the closed form of
its waveform, and the output `ir_out`. -/

namespace Sys2Proof.Machine

/-- One carrier cycle of a mark: half a cycle high, half a cycle low (R112). -/
def carrierCycle (s : State) : State := emit false Config.halfCycleTu (emit true Config.halfCycleTu s)

/-- `MARK()`: `MARK_CYCLES` carrier cycles (R112). -/
def markBurst (P : Params) (s : State) : State := carrierCycle^[P.markCycles] s

/-- `PAUSE(n)`: the line low for `n` cycles (R113). -/
def pause (n : Nat) (s : State) : State := emit false (n * Config.cycleTu) s

/-- The pause of a symbol, in cycles (R78, R114). -/
def pauseCycles : Symbol → Nat
  | .startStop => Config.pauseStartStop
  | .one => Config.pauseOne
  | .zero => Config.pauseZero

/-- "Every symbol is `MARK()` followed by `PAUSE(n)`" (R114). -/
def sendSymbol (P : Params) (s : State) (y : Symbol) : State := pause (pauseCycles y) (markBurst P s)

/-- `PAD()` is `emit(0, MSG_TU − elapsed)` (R119). -/
def padSlot (s : State) : State := emit false (Config.msgTu - s.t.toNat) s

/-- The symbol of a payload bit (R79). -/
def bitSymbol (b : Bool) : Symbol := if b then .one else .zero

/-- The payload bits in the order in which they are sent: `F[15]` first (R49). -/
def payloadBits (F : Frame) : List Bool := (List.range Config.frameBits).map fun k => F.getLsbD (15 - k)

/-- The 18 symbols of one message (R79). -/
def symbols (F : Frame) : List Symbol := .startStop :: ((payloadBits F).map bitSymbol ++ [.startStop])

/-- `send_slot(frame)` (R120, R118): the symbols of the frame, if there is one, and the pad. -/
def sendSlot (P : Params) (fr : Option Frame) (s : State) : State :=
  match fr with
  | some F => padSlot ((symbols F).foldl (sendSymbol P) { s with t := 0 })
  | none => padSlot { s with t := 0 }

/-- `SYM_TU(s) = MARK_TU + PAUSE(s) × CYCLE_TU` (R13, R114). -/
def symTu (P : Params) (y : Symbol) : Nat := P.markTu + pauseCycles y * Config.cycleTu

/-- `off_j`: when the `j`-th symbol of a message begins, counted from the start of the slot (R121). -/
def symOffset (P : Params) (F : Frame) (j : Nat) : Nat := (((symbols F).take j).map (symTu P)).sum

/-- `wave(F, t)`, the closed form of the slot waveform (R121): 1 if and only if `t` lies in the high half of a carrier
cycle of the mark of some symbol. -/
def wave (P : Params) (F : Frame) (t : Nat) : Bool :=
  (List.range 18).any fun j =>
    decide (symOffset P F j ≤ t ∧ t < symOffset P F j + P.markTu ∧
      (t - symOffset P F j) % Config.cycleTu < Config.halfCycleTu)

/-- The level of a slot at `t`: that of its frame, or 0 without one (R121). -/
def slotLevel (P : Params) (fr : Option Frame) (t : Nat) : Bool :=
  match fr with
  | some F => wave P F t
  | none => false

/-- `ir_out`: 1 exactly in a slot with a frame where `wave` is 1 (R34). -/
def irOut (P : Params) (s : State) : Bool := decide (s.phase = .slot) && slotLevel P s.frame s.t.toNat

end Sys2Proof.Machine
end

