-- ==== Sys2Proof/Machine/Round.lean ====
section
/-! DEFINITION. The TransmitterController: the round as one operation (R150 to R155), and the pin-level sequencer that
realises it edge by edge (R160 to R167). -/

namespace Sys2Proof.Machine

/-! ### The round as one operation -/

/-- The slot of channel `c` begins: its frame is computed from the state as it stands (R134, R162). -/
def beginSlot (P : Params) (c : ChannelId) (s : State) : State :=
  { s with phase := .slot, ch := c, t := 0, m := 0, frame := frameOf P c s }

/-- `send_and_advance(c)`: encode, emit the whole slot, advance (R4, R137). -/
def sendAndAdvance (P : Params) (c : ChannelId) (s : State) : State :=
  advance P c (sendSlot P (frameOf P c s) (beginSlot P c s))

/-- The whole round as one operation (R151): the four channels in the order 0, 1, 2, 3 (R152), the idle margin (R153),
and the end of the round (R166). The waveform is that of this round alone. -/
def transmitRound (P : Params) (s : State) : State :=
  roundEnd P (emit false P.roundMarginTu
    (sendAndAdvance P 3 (sendAndAdvance P 2 (sendAndAdvance P 1 (sendAndAdvance P 0 { s with line := [] })))))

/-! ### The pin-level sequencer -/

/-- The round starts (R160). -/
def beginRound (P : Params) (s : State) : State := beginSlot P 0 { s with line := [] }

/-- The period that the coming edge ends is added to the waveform, if it belongs to a round (log 3). -/
def recordPeriod (P : Params) (s : State) : State :=
  if s.phase = .idle then s else { s with line := extendLine (irOut P s) 1 s.line }

/-- What follows the last slot: the margin, or the end of the round if there is none (R162). -/
def afterSlots (P : Params) (s : State) : State :=
  if 0 < P.roundMarginTu then { s with phase := .margin, ch := 0, t := 0, m := 0, frame := none }
  else roundEnd P s

/-- The edge at a slot boundary (R162): advance, then the next slot or what follows the last. -/
def slotBoundary (P : Params) (s : State) : State :=
  if s.ch.val < 3 then beginSlot P (s.ch + 1) (advance P s.ch s) else afterSlots P (advance P s.ch s)

/-- An edge in a slot (R161, R162). -/
def slotEdge (P : Params) (s : State) : State :=
  if s.t.toNat < Config.msgTu - 1 then { s with t := s.t + 1 } else slotBoundary P s

/-- An edge in the margin (R163). -/
def marginEdge (P : Params) (s : State) : State :=
  if s.m < P.roundMarginTu - 1 then { s with m := s.m + 1 } else roundEnd P s

/-- The sequencer's own action at one edge, chosen by the phase before it (R160 to R164, R167). `start` is
`round_start`, sampled in IDLE only (R164). -/
def tick (P : Params) (start : Bool) (s : State) : State :=
  match s.phase with
  | .idle => if start then beginRound P s else s
  | .slot => slotEdge P (recordPeriod P s)
  | .margin => marginEdge P (recordPeriod P s)

/-! ### The operation -/

/-- `TRANSMIT_ROUND` (R151): the whole round. Issued while a round is in progress it is ignored and "leaves no trace"
(R164). -/
def execTransmitRound (s : State) : Host.Outcome State Fault Refusal :=
  if s.phase = .idle then .next (transmitRound Config.params s) else .next s

end Sys2Proof.Machine
end

