-- ==== Sys2Proof/Machine/Symbols.lean ====
section
/-! DEFINITION. The micro-operations of the serializer as operations of the table (R112 to R119). Each is the whole
operation; the clock edges of a slot run it one tu at a time (log 4). -/

namespace Sys2Proof.Machine

/-- `MARK` (R112). -/
def execMark (s : State) : Host.Outcome State Fault Refusal := .next (markBurst Config.params s)

/-- `START_STOP` (R115). -/
def execStartStop (s : State) : Host.Outcome State Fault Refusal := .next (sendSymbol Config.params s .startStop)

/-- `BIT1` (R116). -/
def execBit1 (s : State) : Host.Outcome State Fault Refusal := .next (sendSymbol Config.params s .one)

/-- `BIT0` (R117). -/
def execBit0 (s : State) : Host.Outcome State Fault Refusal := .next (sendSymbol Config.params s .zero)

/-- `PAD` (R119). -/
def execPad (s : State) : Host.Outcome State Fault Refusal := .next (padSlot s)

/-- `IDLE_SLOT` (R118): `elapsed` starts at 0 (R110), no symbol is sent, and the pad is the whole slot. -/
def execIdleSlot (s : State) : Host.Outcome State Fault Refusal := .next (sendSlot Config.params none s)

end Sys2Proof.Machine
end

