-- ==== Sys2Proof/Machine/Dispatch.lean ====
section
/-! DEFINITION. The dispatch: one arm per constructor of `Instr`. -/

namespace Sys2Proof.Machine

def exec (i : Instr) (s : State) : Host.Outcome State Fault Refusal :=
  match i with
  | .setExtended c d => Sys2Proof.Machine.execSetExtended c d s
  | .setComboDirect c a ia b ib => Sys2Proof.Machine.execSetComboDirect c a ia b ib s
  | .setComboPwm c a ia b ib => Sys2Proof.Machine.execSetComboPwm c a ia b ib s
  | .setSinglePwm c sel p inv => Sys2Proof.Machine.execSetSinglePwm c sel p inv s
  | .setSingleCstid c sel d => Sys2Proof.Machine.execSetSingleCstid c sel d s
  | .transmitRound => Sys2Proof.Machine.execTransmitRound s
  | .idleSlot => Sys2Proof.Machine.execIdleSlot s
  | .mark => Sys2Proof.Machine.execMark s
  | .startStop => Sys2Proof.Machine.execStartStop s
  | .bit1 => Sys2Proof.Machine.execBit1 s
  | .bit0 => Sys2Proof.Machine.execBit0 s
  | .pad => Sys2Proof.Machine.execPad s

end Sys2Proof.Machine
end

