-- ==== Sys2Proof/Machine/Edge.lean ====
section
/-! DEFINITION. One rising edge of the clock (R159 to R167, R181), and how an operation is placed where the next edge
runs it. -/

namespace Sys2Proof.Machine

/-- The intake of an edge (R159, R165): the command on the port, if `cmd_valid = 1`, is decoded and executed. -/
def takeCommand (p : Pins) (s : State) : Host.Outcome State Fault Refusal :=
  if p.cmdValid then
    match decodeCommand p with
    | .ok i => exec i s
    | .error _ => .refused .notACommand
  else .next s

/-- The step function of R167: reset first and alone, then the intake, then the sequencer. -/
def edge (p : Pins) (s : State) : Host.Outcome State Fault Refusal :=
  if p.rst then .next (resetEdge s)
  else
    match takeCommand p s with
    | .next s' => .next (tick Config.params p.roundStart s')
    | .fault r => .fault r
    | .refused r => .refused r

/-- The edge at the inputs that come next. -/
def nextEdge (s : State) : Host.Outcome State Fault Refusal := edge (nextPins s) (dropPins s)

/-- The serializer at time `t` of a slot of channel 0 with the given frame. -/
def inSlot (fr : Option Frame) (t : Nat) (s : State) : State :=
  { s with phase := .slot, ch := 0, t := BitVec.ofNat 14 t, m := 0, frame := fr }

/-- The state in which the next edge runs `i`: an operation of `PFT-OPS` is presented at the port; a micro-operation,
which no port presents, is placed where the serializer runs it next: the start of a first symbol, of a payload bit, of
the pad, or of a slot without a frame (log 13). -/
def presentOp (i : Instr) (s : State) : State :=
  match encode Config.params i with
  | .port p => { s with inputs := p :: s.inputs }
  | .symbol _ _ =>
    if i = .bit1 then inSlot (some 0xFFFF) (symOffset Config.params 0xFFFF 1) s
    else if i = .bit0 then inSlot (some 0) (symOffset Config.params 0 1) s
    else inSlot (some 0) 0 s
  | .lowLine wholeSlot =>
    if wholeSlot then inSlot none 0 s else inSlot (some 0) (symOffset Config.params 0 18) s

/-- The state whose next edge runs the instruction of a table word; unchanged if the word is none. -/
def presentWord (nbits w : Nat) (s : State) : State :=
  match decodeTableWord nbits w with
  | some i => presentOp i s
  | none => s

end Sys2Proof.Machine
end

