-- ==== Sys2Proof/Machine/Step.lean ====
section
/-! DEFINITION. The step, one clock edge (R167), and the host's placing of an instruction. -/

namespace Sys2Proof.Machine

/-- One rising edge of the clock, with the inputs that stand first in `inputs` (R167). -/
def step : State → Host.Outcome State Fault Refusal := nextEdge

/-- `s` with the instruction of a table word placed where the next step runs it (log 13). -/
def State.withFetchWord (s : State) (nbits w : Nat) : State := presentWord nbits w s

end Sys2Proof.Machine
end

