-- ==== Sys2Proof/Safety.lean ====
section
/-! DEFINITION. What the statements speak of beside the machine: the invariant of its states (R40), inputs in range, and
the list of operations that a list of port values stands for (R170). -/

namespace Sys2Proof.Machine

/-- The invariant of the states (R40 a to d), with what the rules add to it: an Idle channel has counter 0 (R138), the
frame of a slot is that of the channel being sent (R30, R162), and the recorded waveform is in its one form and exactly
as long as the round has lasted (R168). -/
structure Inv (P : Params) (s : State) : Prop where
  /-- R40 (a). -/
  sends_le : ∀ c : ChannelId, (entry s c).sends.toNat ≤ 4
  /-- R138. -/
  unarmed_sends : ∀ c : ChannelId, (entry s c).armed = false → (entry s c).sends = 0
  /-- R40 (b). -/
  idle : s.phase = .idle → s.ch = 0 ∧ s.t = 0 ∧ s.m = 0 ∧ s.frame = none ∧ ∀ c : ChannelId, held s c = none
  /-- R40 (c), R30. -/
  slot : s.phase = .slot → s.t.toNat ≤ 15999 ∧ s.m = 0 ∧ s.frame = frameOf P s.ch s
  /-- R40 (d), R162. -/
  margin : s.phase = .margin →
    0 < P.roundMarginTu ∧ s.m < P.roundMarginTu ∧ s.frame = none ∧ s.ch = 0 ∧ s.t = 0
  /-- The waveform is in its one form (R18). -/
  line_wf : lineWf s.line = true
  /-- No round has ended since reset, or the last one lasted `ROUND_TU` (R154). -/
  line_idle : s.phase = .idle → lineLength s.line = 0 ∨ lineLength s.line = P.roundTu
  /-- R168. -/
  line_slot : s.phase = .slot → lineLength s.line = 16000 * s.ch.val + s.t.toNat
  /-- R168. -/
  line_margin : s.phase = .margin → lineLength s.line = 64000 + s.m

/-- The five command operations. -/
def isCommand : Instr → Bool
  | .setExtended _ _ => true
  | .setComboDirect _ _ _ _ _ => true
  | .setComboPwm _ _ _ _ _ => true
  | .setSinglePwm _ _ _ _ => true
  | .setSingleCstid _ _ _ => true
  | .transmitRound => false
  | .idleSlot => false
  | .mark => false
  | .startStop => false
  | .bit1 => false
  | .bit0 => false
  | .pad => false

/-- The operation that stores `v` in channel `c`, written with invert flags 0. -/
def commandOp (c : ChannelId) : Cmd → Instr
  | .extended d => .setExtended c.val d.toNat
  | .comboDirect a b => .setComboDirect c.val a.toNat false b.toNat false
  | .comboPwm a b => .setComboPwm c.val a.toNat false b.toNat false
  | .singlePwm sel p => .setSinglePwm c.val sel.toNat p.toNat false
  | .singleCstid sel d => .setSingleCstid c.val sel.toNat d.toNat

/-- The channel argument of a command operation. -/
def channelArg : Instr → Option Nat
  | .setExtended c _ => some c
  | .setComboDirect c _ _ _ _ => some c
  | .setComboPwm c _ _ _ _ => some c
  | .setSinglePwm c _ _ _ => some c
  | .setSingleCstid c _ _ => some c
  | .transmitRound => none
  | .idleSlot => none
  | .mark => none
  | .startStop => none
  | .bit1 => none
  | .bit0 => none
  | .pad => none

/-- The micro-operation of a symbol. -/
def symbolOp : Symbol → Instr
  | .startStop => .startStop
  | .one => .bit1
  | .zero => .bit0

/-- How many bits of a frame are 1: `n1` of R123. -/
def onesIn (F : Frame) : Nat := (payloadBits F).count true

/-- Operations one after another (R55), up to the first that is refused. -/
def execAll : List Instr → State → Host.Outcome State Fault Refusal
  | [], s => .next s
  | i :: rest, s =>
    match exec i s with
    | .next s' => execAll rest s'
    | .fault r => .fault r
    | .refused r => .refused r

/-- An edge at which the caller presents neither reset nor a command. -/
def quiet (p : Pins) : Bool := !p.rst && !p.cmdValid

/-- An edge without reset whose command, if there is one, is in range (R158). -/
def inRange (p : Pins) : Bool :=
  !p.rst && (!p.cmdValid || match decodeCommand p with | .ok i => i.WellFormed | .error _ => false)

/-- The command write presented at an edge, if there is one. -/
def writesOf (p : Pins) : List Instr :=
  if p.cmdValid then match decodeCommand p with | .ok i => [i] | .error _ => [] else []

/-- The operations that a list of port values stands for when it is sampled from an idle block (R170): an accepted round
start is `TRANSMIT_ROUND`, a write at its edge comes before it, and the writes at the `ROUND_TU` edges of the round come
after it in their order. The first argument bounds the recursion; the length of the list is enough. -/
def operationsOf (P : Params) : Nat → List Pins → List Instr
  | 0, _ => []
  | _ + 1, [] => []
  | n + 1, p :: ps =>
    if p.roundStart then
      writesOf p ++ .transmitRound :: ((ps.take P.roundTu).flatMap writesOf ++ operationsOf P n (ps.drop P.roundTu))
    else writesOf p ++ operationsOf P n ps

end Sys2Proof.Machine
end

