-- ==== Sys2Proof/Certificates/Slice0/Obligations.lean ====
section
/-! DEFINITION. The statements for the provers. Rules are those of spec/. -/

open Sys2Proof Sys2Proof.Machine

/-! ### Encoding -/

/-- Every well-formed operation, with every operand the port can carry, is read back from its own encoding (R78, R80,
R82), for every configuration. -/
def Obligations.DecodeEncodeAgree : Prop :=
  ∀ (P : Params) (i : Instr), i.WellFormed = true → decode P (encode P i) = .ok i

/-- The wire frame of a stored command decodes, by the tree of R86, to the operation that stores that command; its top
bit is the toggle bit and its checksum field is right, for every configuration. -/
def Obligations.FrameCarriesTheStoredCommand : Prop :=
  ∀ (P : Params) (v : Cmd) (tg : Bool) (c : ChannelId),
    decodeFrame P (encodeFrame P v tg c) = .ok (commandOp c v) ∧
    (encodeFrame P v tg c).getLsbD 15 = tg ∧ checksumOk (encodeFrame P v tg c) = true

/-- R84: the frames that the encoder yields are exactly those outside (a), (b) and (c), and each is that of exactly one
stored command, toggle and ChannelId. -/
def Obligations.FramesProducedExactlyOnce : Prop :=
  ∀ (P : Params) (F : Frame),
    ((∃ v tg c, F = encodeFrame P v tg c) ↔
      ¬ (F.getLsbD 14 = false ∧ F.getLsbD 11 = true) ∧
      ¬ (F.getLsbD 14 = false ∧ F.getLsbD 10 = false ∧ F.getLsbD 9 = true) ∧
      field4 F = (0xF#4 ^^^ field1 F ^^^ field2 F ^^^ field3 F)) ∧
    ∀ v tg c v' tg' c', F = encodeFrame P v tg c → F = encodeFrame P v' tg' c' → v = v' ∧ tg = tg' ∧ c = c'

/-- Words written out from the encodings of R65 to R69 and R80, one for each command: the wire frames of the worked
examples (95_test_vectors.md V2), and a port value of kind 2. Two things in it are the model's: that a 16-bit table word is
read as a wire frame (log 13, DESIGN CHOICE), in all five word clauses, and the sub-mode value `SUBMODE_PWM` = 0 (log 7,
PRESUMED; the default of R67 and D10, from general knowledge), in the clauses of 0x04D6 and 0x076E. -/
def Obligations.SpecWordsDecode : Prop :=
  decodeTableWord 16 0x206B = some (.setExtended 2 6) ∧
  decodeTableWord 16 0x0197 = some (.setComboDirect 0 1 false 2 false) ∧
  decodeTableWord 16 0x577A = some (.setComboPwm 1 7 false 7 false) ∧
  decodeTableWord 16 0x04D6 = some (.setSinglePwm 0 0 13 false) ∧
  decodeTableWord 16 0x076E = some (.setSingleCstid 0 1 6) ∧
  decodePort
    { rst := false, cmdValid := true, cmdChannel := 1, cmdKind := 2, cmdA := 7, cmdB := 9, cmdInvA := true
      cmdInvB := false, cmdSel := 1, roundStart := false } = .ok (.setComboPwm 1 7 true 9 false)

/-- R81, R84, R85: what is no operation is rejected by name: a frame with the address bit set, a frame of wire mode 2
or 3, and a command kind of 5, 6 or 7, whatever the other bits. -/
def Obligations.ReservedEncodingsAreRejected : Prop :=
  (∀ (P : Params) (F : Frame), F.getLsbD 14 = false → F.getLsbD 11 = true →
    decodeFrame P F = .error .addressBitSet) ∧
  (∀ (P : Params) (F : Frame), F.getLsbD 14 = false → F.getLsbD 11 = false → F.getLsbD 10 = false →
    F.getLsbD 9 = true → decodeFrame P F = .error .modeNeverProduced) ∧
  (∀ p : Pins, 5 ≤ p.cmdKind.toNat → decodeCommand p = .error .notACommand)

/-! ### Operands and the encoder -/

/-- R92 to R94: the two inversions are involutions with the fixed points 0 and 8, and 0 and 3; forward `k` and backward
`k` change places; a flag of 0 leaves a code, a flag of 1 inverts it once; each output's flag acts on its own
code; Extended and CSTID codes are stored as given. -/
def Obligations.InversionLaws : Prop :=
  (∀ x : Nibble, invertPwm (invertPwm x) = x ∧ (invertPwm x = x ↔ x = 0 ∨ x = 8) ∧
    (invertPwm x).toNat = (16 - x.toNat) % 16 ∧ pwmOperand false x = x ∧ pwmOperand true x = invertPwm x) ∧
  (∀ k : Nat, 1 ≤ k → k ≤ 7 → invertPwm (BitVec.ofNat 4 k) = BitVec.ofNat 4 (16 - k) ∧
    invertPwm (BitVec.ofNat 4 (16 - k)) = BitVec.ofNat 4 k) ∧
  (∀ x : DirectCode, invertDirect (invertDirect x) = x ∧ (invertDirect x = x ↔ x = 0 ∨ x = 3) ∧
    directOperand false x = x ∧ directOperand true x = invertDirect x) ∧
  invertDirect 1 = 2 ∧ invertDirect 2 = 1 ∧
  (∀ (a b : DirectCode) (ia ib : Bool),
    comboDirectCmd a.toNat ia b.toNat ib = some (.comboDirect (directOperand ia a) (directOperand ib b))) ∧
  (∀ (a b : Nibble) (ia ib : Bool),
    comboPwmCmd a.toNat ia b.toNat ib = some (.comboPwm (pwmOperand ia a) (pwmOperand ib b))) ∧
  (∀ d : Nibble, extendedCmd d.toNat = some (.extended d)) ∧
  (∀ (sel : BitVec 1) (d : Nibble), singleCstidCmd sel.toNat d.toNat = some (.singleCstid sel d))

/-- R105 (a), (b), (c), (e): in every frame the four fields sum to 0xF, each bit position holds one or three 1s, the
frame holds 4, 6, 8, 10 or 12 of them, and the other toggle value changes exactly bits 15 and 3. -/
def Obligations.FrameParityFacts : Prop :=
  ∀ (P : Params) (v : Cmd) (tg : Bool) (c : ChannelId),
    field1 (encodeFrame P v tg c) ^^^ field2 (encodeFrame P v tg c) ^^^ field3 (encodeFrame P v tg c) ^^^
      field4 (encodeFrame P v tg c) = 0xF ∧
    (∀ i < 4,
      let n := ([field1 (encodeFrame P v tg c), field2 (encodeFrame P v tg c), field3 (encodeFrame P v tg c),
        field4 (encodeFrame P v tg c)].map fun f => (f.getLsbD i).toNat).sum
      n = 1 ∨ n = 3) ∧
    onesIn (encodeFrame P v tg c) ∈ [4, 6, 8, 10, 12] ∧
    encodeFrame P v (!tg) c = encodeFrame P v tg c ^^^ 0x8008

/-! ### The command operations -/

/-- R97. `SET_EXTENDED c, d`: what it stores (into `chan` between rounds, into `shadow` during one), all else unchanged;
its port encoding; the frame and the class of the stored command. -/
def Obligations.SetExtendedStoresAndSends : Prop :=
  ∀ (c : ChannelId) (d : Nibble) (s : State),
    (s.phase = .idle → exec (.setExtended c.val d.toNat) s = .next { s with
      chan := s.chan.set c
        { armed := true, cmd := .extended d, toggle := (entry s c).toggle
          sends := if Config.params.setCmdResetsRepeat then 0 else (entry s c).sends } }) ∧
    (s.phase ≠ .idle → exec (.setExtended c.val d.toNat) s = .next { s with
      shadow := s.shadow.set c (some (.extended d)) }) ∧
    (∀ P : Params, encode P (.setExtended c.val d.toNat) = .port { Pins.idle with
      cmdValid := true, cmdKind := 0, cmdChannel := BitVec.ofNat 2 c.val, cmdA := d }) ∧
    (∀ (P : Params) (tg : Bool), encodeFrame P (.extended d) tg c =
      let f1 : Nibble := BitVec.ofNat 4 (8 * tg.toNat + c.val)
      f1 ++ 0b0000#4 ++ d ++ (0xF#4 ^^^ f1 ^^^ 0b0000#4 ^^^ d)) ∧
    ∀ P : Params, escape (.extended d) = false ∧ isContinuous P (.extended d) = false

/-- R98. `SET_COMBO_DIRECT c, a, ia, b, ib`. -/
def Obligations.SetComboDirectStoresAndSends : Prop :=
  ∀ (c : ChannelId) (a b : DirectCode) (ia ib : Bool) (s : State),
    let a' := if ia then invertDirect a else a
    let b' := if ib then invertDirect b else b
    (s.phase = .idle → exec (.setComboDirect c.val a.toNat ia b.toNat ib) s = .next { s with
      chan := s.chan.set c
        { armed := true, cmd := .comboDirect a' b', toggle := (entry s c).toggle
          sends := if Config.params.setCmdResetsRepeat then 0 else (entry s c).sends } }) ∧
    (s.phase ≠ .idle → exec (.setComboDirect c.val a.toNat ia b.toNat ib) s = .next { s with
      shadow := s.shadow.set c (some (.comboDirect a' b')) }) ∧
    (∀ P : Params, encode P (.setComboDirect c.val a.toNat ia b.toNat ib) = .port { Pins.idle with
      cmdValid := true, cmdKind := 1, cmdChannel := BitVec.ofNat 2 c.val, cmdA := 0#2 ++ a, cmdB := 0#2 ++ b,
      cmdInvA := ia, cmdInvB := ib }) ∧
    (∀ (P : Params) (tg : Bool), encodeFrame P (.comboDirect a' b') tg c =
      let f1 : Nibble := BitVec.ofNat 4 (8 * tg.toNat + c.val)
      f1 ++ 0b0001#4 ++ (b' ++ a') ++ (0xF#4 ^^^ f1 ^^^ 0b0001#4 ^^^ (b' ++ a'))) ∧
    ∀ P : Params, escape (.comboDirect a' b') = false ∧ isContinuous P (.comboDirect a' b') = true

/-- R99. `SET_COMBO_PWM c, a, ia, b, ib`. -/
def Obligations.SetComboPwmStoresAndSends : Prop :=
  ∀ (c : ChannelId) (a b : Nibble) (ia ib : Bool) (s : State),
    let a' := if ia then invertPwm a else a
    let b' := if ib then invertPwm b else b
    (s.phase = .idle → exec (.setComboPwm c.val a.toNat ia b.toNat ib) s = .next { s with
      chan := s.chan.set c
        { armed := true, cmd := .comboPwm a' b', toggle := (entry s c).toggle
          sends := if Config.params.setCmdResetsRepeat then 0 else (entry s c).sends } }) ∧
    (s.phase ≠ .idle → exec (.setComboPwm c.val a.toNat ia b.toNat ib) s = .next { s with
      shadow := s.shadow.set c (some (.comboPwm a' b')) }) ∧
    (∀ P : Params, encode P (.setComboPwm c.val a.toNat ia b.toNat ib) = .port { Pins.idle with
      cmdValid := true, cmdKind := 2, cmdChannel := BitVec.ofNat 2 c.val, cmdA := a, cmdB := b,
      cmdInvA := ia, cmdInvB := ib }) ∧
    (∀ (P : Params) (tg : Bool), encodeFrame P (.comboPwm a' b') tg c =
      let f1 : Nibble := BitVec.ofNat 4 (8 * tg.toNat + 4 + c.val)
      f1 ++ b' ++ a' ++ (0xF#4 ^^^ f1 ^^^ b' ^^^ a')) ∧
    ∀ P : Params, escape (.comboPwm a' b') = true ∧ isContinuous P (.comboPwm a' b') = true

/-- R100. `SET_SINGLE_PWM c, sel, p, inv`. -/
def Obligations.SetSinglePwmStoresAndSends : Prop :=
  ∀ (c : ChannelId) (sel : BitVec 1) (p : Nibble) (inv : Bool) (s : State),
    let p' := if inv then invertPwm p else p
    (s.phase = .idle → exec (.setSinglePwm c.val sel.toNat p.toNat inv) s = .next { s with
      chan := s.chan.set c
        { armed := true, cmd := .singlePwm sel p', toggle := (entry s c).toggle
          sends := if Config.params.setCmdResetsRepeat then 0 else (entry s c).sends } }) ∧
    (s.phase ≠ .idle → exec (.setSinglePwm c.val sel.toNat p.toNat inv) s = .next { s with
      shadow := s.shadow.set c (some (.singlePwm sel p')) }) ∧
    (∀ P : Params, encode P (.setSinglePwm c.val sel.toNat p.toNat inv) = .port { Pins.idle with
      cmdValid := true, cmdKind := 3, cmdChannel := BitVec.ofNat 2 c.val, cmdSel := sel, cmdA := p,
      cmdInvA := inv }) ∧
    (∀ (P : Params) (tg : Bool), encodeFrame P (.singlePwm sel p') tg c =
      let f1 : Nibble := BitVec.ofNat 4 (8 * tg.toNat + c.val)
      let f2 : Nibble := BitVec.ofNat 4 (4 + 2 * P.submodePwm.toNat + sel.toNat)
      f1 ++ f2 ++ p' ++ (0xF#4 ^^^ f1 ^^^ f2 ^^^ p')) ∧
    ∀ P : Params, escape (.singlePwm sel p') = false ∧ isContinuous P (.singlePwm sel p') = false

/-- R101. `SET_SINGLE_CSTID c, sel, d`; it is continuous exactly for the two full-speed codes (R133). -/
def Obligations.SetSingleCstidStoresAndSends : Prop :=
  ∀ (c : ChannelId) (sel : BitVec 1) (d : Nibble) (s : State),
    (s.phase = .idle → exec (.setSingleCstid c.val sel.toNat d.toNat) s = .next { s with
      chan := s.chan.set c
        { armed := true, cmd := .singleCstid sel d, toggle := (entry s c).toggle
          sends := if Config.params.setCmdResetsRepeat then 0 else (entry s c).sends } }) ∧
    (s.phase ≠ .idle → exec (.setSingleCstid c.val sel.toNat d.toNat) s = .next { s with
      shadow := s.shadow.set c (some (.singleCstid sel d)) }) ∧
    (∀ P : Params, encode P (.setSingleCstid c.val sel.toNat d.toNat) = .port { Pins.idle with
      cmdValid := true, cmdKind := 4, cmdChannel := BitVec.ofNat 2 c.val, cmdSel := sel, cmdA := d }) ∧
    (∀ (P : Params) (tg : Bool), encodeFrame P (.singleCstid sel d) tg c =
      let f1 : Nibble := BitVec.ofNat 4 (8 * tg.toNat + c.val)
      let f2 : Nibble := BitVec.ofNat 4 (4 + 2 * (1 - P.submodePwm.toNat) + sel.toNat)
      f1 ++ f2 ++ d ++ (0xF#4 ^^^ f1 ^^^ f2 ^^^ d)) ∧
    ∀ P : Params, escape (.singleCstid sel d) = false ∧
      (isContinuous P (.singleCstid sel d) = true ↔ d = P.cstidFullForward ∨ d = P.cstidFullBackward)

/-- Which operations complete: a command operation exactly when every operand is in its range (R46, R81, R177), and
every other operation always (the block raises nothing and waits for nothing: R85, R158, R175, R176); none stops otherwise
than by these two refusals. Three parts are the model's: that `TRANSMIT_ROUND` given while a round is in progress completes,
by being ignored (log 18, DEDUCED); that a micro-operation completes in every phase (log 17, DESIGN CHOICE); and that an
outputSelect above 1 is a case of `codeOutOfRange` (log 10, DEDUCED). -/
def Obligations.OperationsCompleteExactlyInRange : Prop :=
  ∀ (i : Instr) (s : State),
    (i.WellFormed = true → ∃ t, exec i s = .next t) ∧
    (i.WellFormed = false →
      isCommand i = true ∧ (exec i s = .refused .channelOutOfRange ∨ exec i s = .refused .codeOutOfRange))

/-- R57: two commands for different channels commute, between rounds and during one. -/
def Obligations.WritesToDifferentChannelsCommute : Prop :=
  ∀ (i j : Instr) (s : State), isCommand i = true → isCommand j = true → i.WellFormed = true → j.WellFormed = true →
    channelArg i ≠ channelArg j → ∃ t, execAll [i, j] s = .next t ∧ execAll [j, i] s = .next t

/-- R56: of two commands for one channel only the later leaves a trace, between rounds and during one. -/
def Obligations.LaterWriteOverwrites : Prop :=
  ∀ (i j : Instr) (s : State), isCommand i = true → isCommand j = true → i.WellFormed = true → j.WellFormed = true →
    channelArg i = channelArg j → ∃ t, exec j s = .next t ∧ execAll [i, j] s = .next t

/-- R131, for every configuration: the write arms the addressed channel with the new command, keeps its toggle, zeroes
its counter exactly if `SETCMD_RESETS_REPEAT`, and changes nothing else. -/
def Obligations.CommandWriteRule : Prop :=
  ∀ (P : Params) (c : ChannelId) (v : Cmd) (s : State),
    commandWrite P c v s = { s with
      chan := s.chan.set c
        { armed := true, cmd := v, toggle := (entry s c).toggle
          sends := if P.setCmdResetsRepeat then 0 else (entry s c).sends } }

/-! ### The repeat and toggle machine -/

/-- R135, for every configuration: the three cases of the advance, each as the whole next state. -/
def Obligations.AdvanceRule : Prop :=
  ∀ (P : Params) (c : ChannelId) (s : State),
    ((entry s c).armed = false → advance P c s = s) ∧
    ((entry s c).armed = true → isContinuous P (entry s c).cmd = true → advance P c s = s) ∧
    ((entry s c).armed = true → isContinuous P (entry s c).cmd = false → (entry s c).sends.toNat = 4 →
      advance P c s = { s with
        chan := s.chan.set c
          { armed := false, cmd := (entry s c).cmd, toggle := !(entry s c).toggle, sends := 0 } }) ∧
    ((entry s c).armed = true → isContinuous P (entry s c).cmd = false → (entry s c).sends.toNat < 4 →
      advance P c s = { s with
        chan := s.chan.set c
          { armed := true, cmd := (entry s c).cmd, toggle := (entry s c).toggle, sends := (entry s c).sends + 1 } })

/-- R139 (a), (c), (d): a repeat-limited command that starts with counter 0 is sent with one and the same frame in five
rounds, its toggle flips once, with the fifth; from then on the channel is silent, and the next command's frame carries
the flipped toggle. -/
def Obligations.FiveRoundsCloseACommand : Prop :=
  ∀ (s : State) (c : ChannelId), s.phase = .idle → (∀ d : ChannelId, held s d = none) → (entry s c).armed = true →
    isContinuous Config.params (entry s c).cmd = false → (entry s c).sends = 0 →
    (∀ k ≤ 4, ∃ t, execAll (List.replicate k .transmitRound) s = .next t ∧
      entry t c = { (entry s c) with sends := BitVec.ofNat 3 k } ∧
      frameOf Config.params c t = some (encodeFrame Config.params (entry s c).cmd (entry s c).toggle c)) ∧
    (∀ k ≥ 5, ∃ t, execAll (List.replicate k .transmitRound) s = .next t ∧
      entry t c = { (entry s c) with armed := false, toggle := !(entry s c).toggle, sends := 0 } ∧
      frameOf Config.params c t = none ∧
      ∀ v : Cmd, ∃ u, exec (commandOp c v) t = .next u ∧
        frameOf Config.params c u = some (encodeFrame Config.params v (!(entry s c).toggle) c))

/-- R139 (b): a continuous command is sent in every round with the same frame and its channel entry never changes. -/
def Obligations.ContinuousCommandIsSentForEver : Prop :=
  ∀ (s : State) (c : ChannelId) (k : Nat), s.phase = .idle → (∀ d : ChannelId, held s d = none) →
    (entry s c).armed = true → isContinuous Config.params (entry s c).cmd = true →
    ∃ t, execAll (List.replicate k .transmitRound) s = .next t ∧ entry t c = entry s c ∧
      frameOf Config.params c t = some (encodeFrame Config.params (entry s c).cmd (entry s c).toggle c)

/-- R24, R23: but for reset, a toggle bit changes, and a channel becomes Idle, only at the edge that ends its own slot,
on the fifth send of a repeat-limited command. -/
def Obligations.OnlyTheFifthSendClosesAChannel : Prop :=
  ∀ (s t : State) (c : ChannelId), (nextPins s).rst = false → step s = .next t →
    ((entry t c).toggle ≠ (entry s c).toggle ∨ ((entry s c).armed = true ∧ (entry t c).armed = false)) →
    s.phase = .slot ∧ s.ch = c ∧ 15999 ≤ s.t.toNat ∧ (entry s c).armed = true ∧
      isContinuous Config.params (entry s c).cmd = false ∧ (entry s c).sends.toNat = 4 ∧
      (entry t c).toggle = !(entry s c).toggle

/-! ### The serializer -/

/-- R112: the mark as the whole next state: `MARK_TU` more tu, high in the first half of every carrier cycle. It is given
every state: outside a slot, and from a `t` whose sum passes its 14 bits, where it wraps, neither of which a run reaches,
this is the model's choice (log 17). -/
def Obligations.MarkEmitsTheCarrier : Prop :=
  ∀ s : State, ∃ t, exec .mark s = .next t ∧
    t = { s with t := s.t + BitVec.ofNat 14 (26 * Config.params.markCycles), line := t.line } ∧
    lineLength t.line = lineLength s.line + 26 * Config.params.markCycles ∧
    (∀ τ < lineLength s.line, levelAt t.line τ = levelAt s.line τ) ∧
    ∀ k < 26 * Config.params.markCycles, levelAt t.line (lineLength s.line + k) = decide (k % 26 < 13)

/-- R114 to R117: `START_STOP`, `BIT1` and `BIT0` are a mark and a low pause of 39, 21 and 10 cycles. They are given every
state: outside a slot, and from a `t` whose sum passes its 14 bits, where it wraps, this is the model's choice (log 17). -/
def Obligations.SymbolsEmitMarkAndPause : Prop :=
  ∀ (y : Symbol) (s : State),
    let pauseTu := match y with | .startStop => 26 * 39 | .one => 26 * 21 | .zero => 26 * 10
    let markTu := 26 * Config.params.markCycles
    ∃ t, exec (symbolOp y) s = .next t ∧
      t = { s with t := s.t + BitVec.ofNat 14 (markTu + pauseTu), line := t.line } ∧
      lineLength t.line = lineLength s.line + (markTu + pauseTu) ∧
      (∀ τ < lineLength s.line, levelAt t.line τ = levelAt s.line τ) ∧
      ∀ k < markTu + pauseTu, levelAt t.line (lineLength s.line + k) = (decide (k < markTu) && decide (k % 26 < 13))

/-- R119, R118: the pad holds the line low until the slot has lasted 16000 tu (R120: "now elapsed = MSG_TU = 16000"); the
slot of an Idle channel is low for all 16000. R118 speaks of a slot whose frame is `none` and whose `elapsed` is 0: that
`IDLE_SLOT`, given any state, first sets `elapsed` to 0 and asks for no frame is the model's reading (log 22). The phase is
not asked for either (log 17). -/
def Obligations.PadAndIdleSlotHoldTheLineLow : Prop :=
  ∀ s : State,
    (s.t.toNat ≤ 16000 → ∃ t, exec .pad s = .next t ∧ t = { s with t := 16000, line := t.line } ∧
      lineLength t.line = lineLength s.line + (16000 - s.t.toNat) ∧
      (∀ τ < lineLength s.line, levelAt t.line τ = levelAt s.line τ) ∧
      ∀ τ ≥ lineLength s.line, levelAt t.line τ = false) ∧
    ∃ t, exec .idleSlot s = .next t ∧ t = { s with t := 16000, line := t.line } ∧
      lineLength t.line = lineLength s.line + 16000 ∧
      (∀ τ < lineLength s.line, levelAt t.line τ = levelAt s.line τ) ∧
      ∀ τ ≥ lineLength s.line, levelAt t.line τ = false

/-- The model's choice (log 17): the pad never takes the line back. Its natural subtraction gives a pad of 0 tu when 16000
or more have elapsed, of which a run reaches none. -/
def Obligations.PadIsEmptyPastTheSlotEnd : Prop := ∀ s : State, 16000 ≤ s.t.toNat → exec .pad s = .next s

/-- R122, R123: the 18 symbols of any 16-bit pattern take `18·MARK_TU + 6188 + 286·n1` tu, and fit into a slot for every
configuration. -/
def Obligations.SymbolsFitIntoASlot : Prop :=
  ∀ (P : Params) (F : Frame),
    symOffset P F 18 = 18 * P.markTu + 6188 + 286 * onesIn F ∧ onesIn F ≤ 16 ∧ symOffset P F 18 ≤ 16000

/-- R120, R121: a slot lasts exactly 16000 tu whatever its frame, and what the sequence of `emit` calls puts on the line
is the closed form `wave`, for every configuration. -/
def Obligations.SlotWaveformIsTheClosedForm : Prop :=
  ∀ (P : Params) (fr : Option Frame) (s : State),
    let t := sendSlot P fr s
    t = { s with t := 16000, line := t.line } ∧ lineLength t.line = lineLength s.line + 16000 ∧
    (∀ τ < lineLength s.line, levelAt t.line τ = levelAt s.line τ) ∧
    ∀ τ < 16000, levelAt t.line (lineLength s.line + τ) = slotLevel P fr τ

/-- R125: the slot of an Armed channel is high for `18 × MARK_CYCLES` runs of 13 tu: each rise begins exactly 13 high tu
that are followed by a low one. -/
def Obligations.HighRunsOfASlot : Prop :=
  ∀ (P : Params) (F : Frame),
    (List.range 16000).countP (fun τ => wave P F τ) = 13 * (18 * P.markCycles) ∧
    (∀ τ < 16000, wave P F τ = true → (τ = 0 ∨ wave P F (τ - 1) = false) →
      (∀ k < 13, wave P F (τ + k) = true) ∧ wave P F (τ + 13) = false)

/-! ### The round -/

/-- R151 to R155: a round started from rest, as one operation: each channel is advanced once and nothing else of it
changes; the waveform lasts `64000 + ROUND_MARGIN_TU` tu, shows in slot `k` the frame of channel `k`, and is low in the
margin; the sequencer is at rest again. -/
def Obligations.TransmitRoundSendsAllFourChannels : Prop :=
  ∀ s : State, s.phase = .idle → (∀ d : ChannelId, held s d = none) →
    ∃ t, exec .transmitRound s = .next t ∧
      (∀ c : ChannelId, entry t c = advanceEntry Config.params (entry s c)) ∧
      t.phase = .idle ∧ t.ch = 0 ∧ t.t = 0 ∧ t.m = 0 ∧ t.frame = none ∧ t.shadow = s.shadow ∧ t.inputs = s.inputs ∧
      lineWf t.line = true ∧ lineLength t.line = 64000 + Config.roundMarginTu ∧
      (∀ (k : ChannelId) (τ : Nat), τ < 16000 → levelAt t.line (16000 * k.val + τ) =
        slotLevel Config.params (frameOf Config.params k s) τ) ∧
      ∀ τ ≥ 64000, levelAt t.line τ = false

/-- The model's choice (log 18, DEDUCED): the operation `TRANSMIT_ROUND` given while a round is in progress leaves no trace.
R164 says so of the pin `round_start` sampled at an edge; that the operation given then is that same event is inferred. -/
def Obligations.RoundStartWhileBusyIsIgnored : Prop :=
  ∀ s : State, s.phase ≠ .idle → exec .transmitRound s = .next s

/-! ### The step -/

/-- R159, R167: a step runs the command that the port presents, then the sequencer; in a block at rest that starts no
round the step is the command alone. -/
def Obligations.StepRunsTheCommandOnThePort : Prop :=
  ∀ (s : State) (i : Instr), (nextPins s).rst = false → (nextPins s).cmdValid = true →
    decodeCommand (nextPins s) = .ok i → i.WellFormed = true →
    (s.phase = .idle → (nextPins s).roundStart = false → step s = exec i (dropPins s)) ∧
    ∃ t, exec i (dropPins s) = .next t ∧ step s = .next (tick Config.params (nextPins s).roundStart t)

/-- R160: in a block at rest `round_start = 1` starts a round whose first frame is that of channel 0 after the intake of
the same edge; with `round_start = 0` only the intake acts. -/
def Obligations.StepStartsARoundFromRest : Prop :=
  ∀ s s' : State, s.phase = .idle → (nextPins s).rst = false → takeCommand (nextPins s) (dropPins s) = .next s' →
    ((nextPins s).roundStart = true → ∃ t, step s = .next t ∧
      t = { s' with phase := .slot, ch := 0, t := 0, m := 0, frame := frameOf Config.params 0 s', line := [] } ∧
      busy t = true ∧ irOut Config.params t = slotLevel Config.params (frameOf Config.params 0 s') 0) ∧
    ((nextPins s).roundStart = false → step s = .next s')

/-- R159, R167: at an edge without reset and without a command the step is the sequencer's action alone. -/
def Obligations.StepWithoutACommandIsTheSequencer : Prop :=
  ∀ s : State, (nextPins s).rst = false → (nextPins s).cmdValid = false →
    step s = .next (tick Config.params (nextPins s).roundStart (dropPins s))

/-- R161, R30, R61: inside a slot the time advances by one tu, and neither the position, the frame nor any channel
changes, whatever in-range inputs the caller presents. -/
def Obligations.InsideASlotOnlyTimePasses : Prop :=
  ∀ s : State, s.phase = .slot → s.t.toNat < 15999 → inRange (nextPins s) = true →
    ∃ t, step s = .next t ∧ t.t.toNat = s.t.toNat + 1 ∧ t.phase = .slot ∧ t.ch = s.ch ∧ t.m = s.m ∧ t.frame = s.frame ∧
      t.chan = s.chan ∧ t.inputs = s.inputs.tail ∧ ((nextPins s).cmdValid = false → t.shadow = s.shadow) ∧
      t.line = extendLine (irOut Config.params s) 1 s.line

/-- R162, for every configuration, whatever `round_start`: at a slot boundary the channel just sent advances and no other
entry changes; then the next slot begins with the next channel's frame, or after the last slot the margin, or without a
margin the round ends. -/
def Obligations.SlotBoundaryAdvancesAndMovesOn : Prop :=
  ∀ (P : Params) (s : State) (start : Bool), s.phase = .slot → s.t = 15999 →
    let a := { s with
      chan := s.chan.set s.ch (advanceEntry P (entry s s.ch)), line := extendLine (irOut P s) 1 s.line }
    (s.ch.val < 3 →
      tick P start s = { a with ch := s.ch + 1, t := 0, m := 0, frame := frameOf P (s.ch + 1) s }) ∧
    (s.ch = 3 → 0 < P.roundMarginTu →
      tick P start s = { a with phase := .margin, ch := 0, t := 0, m := 0, frame := none }) ∧
    (s.ch = 3 → P.roundMarginTu = 0 → tick P start s = roundEnd P a)

/-- R163, for every configuration, whatever `round_start`: in the margin the line is low and only its time advances; at
its last period the round ends. -/
def Obligations.MarginPassesAndEndsTheRound : Prop :=
  ∀ (P : Params) (s : State) (start : Bool), s.phase = .margin →
    irOut P s = false ∧
    (s.m + 1 < P.roundMarginTu → tick P start s = { s with m := s.m + 1, line := extendLine false 1 s.line }) ∧
    (s.m + 1 = P.roundMarginTu → tick P start s = roundEnd P { s with line := extendLine false 1 s.line })

/-- R166, for every configuration: at the edge that ends a round, by the margin or without one, the sequencer comes to
rest and every held write is applied, after the advance of channel 3 if that falls on the same edge. -/
def Obligations.RoundEndAppliesHeldWrites : Prop :=
  ∀ (P : Params) (s : State) (start : Bool), (s.phase = .margin ∧ s.m + 1 = P.roundMarginTu) ∨
      (s.phase = .slot ∧ s.ch = 3 ∧ s.t = 15999 ∧ P.roundMarginTu = 0) →
    let t := tick P start s
    t.phase = .idle ∧ t.ch = 0 ∧ t.t = 0 ∧ t.m = 0 ∧ t.frame = none ∧ t.inputs = s.inputs ∧
      busy t = false ∧ irOut P t = false ∧
      ∀ c : ChannelId, held t c = none ∧
        let e := if s.phase = .slot ∧ c = 3 then advanceEntry P (entry s c) else entry s c
        entry t c = match held s c with
          | none => e
          | some v =>
            { armed := true, cmd := v, toggle := e.toggle, sends := if P.setCmdResetsRepeat then 0 else e.sends }

/-- R165, R166, R181 (c): a command at the edge that ends a round is applied at that same edge, after the round's own
effect: the step is the quiet step followed by the command. -/
def Obligations.WriteAtTheRoundEndComesAfterIt : Prop :=
  ∀ (s : State) (p : Pins) (i : Instr) (rest : List Pins),
    (s.phase = .margin ∧ s.m + 1 = Config.roundMarginTu) ∨
      (s.phase = .slot ∧ s.ch = 3 ∧ s.t = 15999 ∧ Config.roundMarginTu = 0) →
    p.rst = false → p.cmdValid = true → decodeCommand p = .ok i → i.WellFormed = true →
    ∃ t, step { s with inputs := Pins.idle :: rest } = .next t ∧ t.phase = .idle ∧
      step { s with inputs := p :: rest } = exec i t

/-- R200, R39: at an edge with `rst = 1` every element of the block takes its reset value, whatever the state before and
whatever else the caller presents. -/
def Obligations.ResetTakesEverythingToItsResetValue : Prop :=
  ∀ s : State, (nextPins s).rst = true → ∃ t, step s = .next t ∧
    (∀ c : ChannelId, (entry t c).armed = false ∧ (entry t c).toggle = false ∧ (entry t c).sends = 0 ∧ held t c = none ∧
      stArmed t c = false ∧ stToggle t c = false ∧ stRepeat t c = 0) ∧
    t.phase = .idle ∧ t.ch = 0 ∧ t.t = 0 ∧ t.m = 0 ∧ t.frame = none ∧ busy t = false ∧ irOut Config.params t = false ∧
    t.inputs = s.inputs.tail

/-- R39: the values after reset. -/
def Obligations.ResetStateValues : Prop :=
  (∀ c : ChannelId, (entry State.reset c).armed = false ∧ (entry State.reset c).toggle = false ∧
    (entry State.reset c).sends = 0 ∧ held State.reset c = none) ∧
  State.reset.phase = .idle ∧ State.reset.ch = 0 ∧ State.reset.t = 0 ∧ State.reset.m = 0 ∧ State.reset.frame = none ∧
  busy State.reset = false ∧ irOut Config.params State.reset = false

/-- R167, R177: the step is total on in-range inputs and on reset; otherwise it is refused by name. -/
def Obligations.StepCompletesExactlyInRange : Prop :=
  ∀ s : State,
    ((nextPins s).rst = true ∨ inRange (nextPins s) = true → ∃ t, step s = .next t) ∧
    ((nextPins s).rst = false → inRange (nextPins s) = false →
      (5 ≤ (nextPins s).cmdKind.toNat → step s = .refused .notACommand) ∧
      ((nextPins s).cmdKind.toNat < 5 → (nextPins s).cmdKind = 1 ∧
        (4 ≤ (nextPins s).cmdA.toNat ∨ 4 ≤ (nextPins s).cmdB.toNat) ∧ step s = .refused .codeOutOfRange))

/-- R34: the outputs of every state. -/
def Obligations.OutputsOfEveryState : Prop :=
  ∀ (P : Params) (s : State),
    (busy s = true ↔ s.phase ≠ .idle) ∧
    (irOut P s = true ↔ s.phase = .slot ∧ ∃ F, s.frame = some F ∧ wave P F s.t.toNat = true) ∧
    ∀ c : ChannelId, stArmed s c = (entry s c).armed ∧ stToggle s c = (entry s c).toggle ∧ stRepeat s c = (entry s c).sends

/-! ### Whole runs -/

/-- The invariant of R40 (a) to (d), with R138, R30 and R168 (`Inv`), is kept by every step from every state. -/
def Obligations.StepKeepsTheInvariant : Prop :=
  ∀ s t : State, Inv Config.params s → step s = .next t → Inv Config.params t

/-- The invariant holds after reset. -/
def Obligations.ResetMeetsTheInvariant : Prop := Inv Config.params State.reset

/-- A micro-operation touches only the slot's clock and the line: `chan`, `shadow`, the position, the frame and the coming
inputs stay, in every phase (outside a slot: the model's choice, log 17). -/
def Obligations.MicroOperationsTouchOnlyClockAndLine : Prop :=
  ∀ (i : Instr) (s t : State), i ∈ [.mark, .startStop, .bit1, .bit0, .pad, .idleSlot] → exec i s = .next t →
    t = { s with t := t.t, line := t.line }

/-- The serializer's clock edges run a symbol: from the start of the `j`-th symbol of a frame, as many quiet edges as
the symbol lasts leave the same state as the operation itself (R114, R121, R161). -/
def Obligations.SlotEdgesRunTheSymbol : Prop :=
  ∀ (s : State) (F : Frame) (j : Nat) (y : Symbol) (ps rest : List Pins), s.phase = .slot → s.frame = some F →
    (symbols F)[j]? = some y → s.t.toNat = symOffset Config.params F j → s.inputs = ps ++ rest →
    ps.length = symTu Config.params y → (∀ p ∈ ps, quiet p = true) →
    ∃ t, exec (symbolOp y) { s with inputs := rest } = .next t ∧ Host.Core.run Sys2Proof.core ps.length s = .next t

/-- The serializer's clock edges run the other micro-operations too (R112, R118, R119, R161, R162): `MARK` from the start
of a symbol; `PAD` after the last symbol and `IDLE_SLOT` from the start of a slot without a frame, each followed by the
slot boundary that its last edge is. -/
def Obligations.SlotEdgesRunMarkPadAndIdleSlot : Prop :=
  ∀ (s : State) (ps rest : List Pins), s.phase = .slot → s.inputs = ps ++ rest → (∀ p ∈ ps, quiet p = true) →
    (∀ (F : Frame) (j : Nat), s.frame = some F → j < 18 → s.t.toNat = symOffset Config.params F j →
      ps.length = Config.params.markTu →
      ∃ t, exec .mark { s with inputs := rest } = .next t ∧ Host.Core.run Sys2Proof.core ps.length s = .next t) ∧
    (∀ F : Frame, s.frame = some F → s.t.toNat = symOffset Config.params F 18 → ps.length = 16000 - s.t.toNat →
      ∃ t, exec .pad { s with inputs := rest } = .next t ∧
        Host.Core.run Sys2Proof.core ps.length s = .next (slotBoundary Config.params t)) ∧
    (s.frame = none → s.t = 0 → ps.length = 16000 →
      ∃ t, exec .idleSlot { s with inputs := rest } = .next t ∧
        Host.Core.run Sys2Proof.core ps.length s = .next (slotBoundary Config.params t))

/-- R155, R168, R169, for every configuration: the sequencer's edges from the start of a round hold `busy` for `ROUND_TU`
periods, with the slot, the time in it and the level that R168 says, and the last of them leaves the state and the
waveform of the operation `TRANSMIT_ROUND`. -/
def Obligations.SequencerRunsTheRound : Prop :=
  ∀ (P : Params) (s : State) (start : Bool),
    (∀ n < P.roundTu,
      let t := (tick P start)^[n] (beginRound P s)
      busy t = true ∧
      (n < 64000 → t.phase = .slot ∧ t.ch.val = n / 16000 ∧ t.t.toNat = n % 16000 ∧
        ∀ k : ChannelId, k.val = n / 16000 → irOut P t = slotLevel P (frameOf P k s) (n % 16000)) ∧
      (64000 ≤ n → t.phase = .margin ∧ t.m = n - 64000 ∧ irOut P t = false)) ∧
    (tick P start)^[P.roundTu] (beginRound P s) = transmitRound P s

/-- R156, R168: inside a round every in-range edge keeps `busy` until `ROUND_TU` periods are over, with the slot, the
time in it and the level that R168 says; then the block is at rest. `s₁` is the state after the intake of the edge that
starts the round. -/
def Obligations.RoundTimeline : Prop :=
  ∀ (s s₁ : State) (p : Pins) (ps : List Pins), s.phase = .idle → s.inputs = p :: ps → p.roundStart = true →
    inRange p = true → (∀ q ∈ ps, inRange q = true) → ps.length = Config.params.roundTu →
    takeCommand p (dropPins s) = .next s₁ →
    (∀ n < Config.params.roundTu, ∃ t, Host.Core.run Sys2Proof.core (n + 1) s = .next t ∧ busy t = true ∧
      (n < 64000 → t.phase = .slot ∧ t.ch.val = n / 16000 ∧ t.t.toNat = n % 16000 ∧
        ∀ k : ChannelId, k.val = n / 16000 →
          irOut Config.params t = slotLevel Config.params (frameOf Config.params k s₁) (n % 16000)) ∧
      (64000 ≤ n → t.phase = .margin ∧ t.m = n - 64000 ∧ irOut Config.params t = false)) ∧
    ∃ t, Host.Core.run Sys2Proof.core (Config.params.roundTu + 1) s = .next t ∧ busy t = false

/-- R169: the clock edges of a round whose caller is quiet leave the state that the operation `TRANSMIT_ROUND` leaves,
its waveform included. -/
def Obligations.QuietEdgesRunTheRound : Prop :=
  ∀ (s : State) (p : Pins) (ps : List Pins), s.phase = .idle → s.inputs = p :: ps → p.roundStart = true →
    quiet p = true → (∀ q ∈ ps, quiet q = true) → ps.length = Config.params.roundTu →
    ∃ t, exec .transmitRound { s with inputs := [] } = .next t ∧
      Host.Core.run Sys2Proof.core (Config.params.roundTu + 1) s = .next t

/-- R170, one round: the clock edges of a round with commands at any of its edges leave the state of the operations: the
command at the starting edge, the round, then the commands that arrived during it, in their order. -/
def Obligations.RoundWithWritesRefinesOperations : Prop :=
  ∀ (s : State) (p : Pins) (ps : List Pins), s.phase = .idle → (∀ d : ChannelId, held s d = none) →
    s.inputs = p :: ps → p.roundStart = true → inRange p = true → (∀ q ∈ ps, inRange q = true) →
    ps.length = Config.params.roundTu →
    ∃ t, execAll (writesOf p ++ .transmitRound :: ps.flatMap writesOf) { s with inputs := [] } = .next t ∧
      Host.Core.run Sys2Proof.core (Config.params.roundTu + 1) s = .next t

/-- R170, every run: a run over any in-range port values that ends at rest leaves the state of the list of operations it
stands for. -/
def Obligations.EveryRunRefinesOperations : Prop :=
  ∀ (s t : State), s.phase = .idle → (∀ d : ChannelId, held s d = none) →
    (∀ q ∈ s.inputs, inRange q = true) → Host.Core.run Sys2Proof.core s.inputs.length s = .next t → t.phase = .idle →
    execAll (operationsOf Config.params s.inputs.length s.inputs) { s with inputs := [] } = .next t

/-- The recorded waveform and the caller's later inputs are no part of the block: they change nothing of what a step
does to the rest of the state (model's own fields, log 2 and 3). -/
def Obligations.TheRecordIsNeverRead : Prop :=
  ∀ (s t : State) (line : List Run), step s = .next t →
    ∃ line', step { s with line := line } = .next { t with line := line' }

/-- R61, R164, R211: during a round nothing that the caller presents, short of reset, changes what is sent: two in-range
inputs lead to the same position, frame, recorded waveform and output. -/
def Obligations.CallerCannotDisturbARound : Prop :=
  ∀ (s t t' : State) (p p' : Pins) (rest : List Pins), s.phase ≠ .idle → p.rst = false → p'.rst = false →
    step { s with inputs := p :: rest } = .next t → step { s with inputs := p' :: rest } = .next t' →
    t.phase = t'.phase ∧ t.ch = t'.ch ∧ t.t = t'.t ∧ t.m = t'.m ∧ t.frame = t'.frame ∧ t.line = t'.line ∧
      irOut Config.params t = irOut Config.params t'

/-! ### Configurations -/

/-- U7, R122: a configuration is built exactly for `MARK_CYCLES` = 1..11, with that value and nothing else changed. -/
def Obligations.ConfigurationsInRangeOnly : Prop :=
  ∀ (P : Params) (n : Nat),
    ((P.build n).isSome = true ↔ 1 ≤ n ∧ n ≤ 11) ∧
    ∀ Q, P.build n = some Q → Q.markCycles = n ∧ Q.markTu = 26 * n ∧ Q.roundTu = 64000 + P.roundMarginTu ∧
      Q = { P with markCyclesLess1 := Q.markCyclesLess1 }
end

