-- ==== Sys2Proof/Laws/State.lean ====
section
/-! SUPPORT. For each update of the state, what it does to each field: true by `rfl`, for `simp`. -/

namespace Sys2Proof.Machine

/-! `setChan` -/

@[simp] theorem setChan_chan (c : ChannelId) (e : ChannelState) (s : State) :
    (setChan c e s).chan = s.chan.set c e := rfl
@[simp] theorem setChan_phase (c : ChannelId) (e : ChannelState) (s : State) :
    (setChan c e s).phase = s.phase := rfl
@[simp] theorem setChan_ch (c : ChannelId) (e : ChannelState) (s : State) :
    (setChan c e s).ch = s.ch := rfl
@[simp] theorem setChan_t (c : ChannelId) (e : ChannelState) (s : State) :
    (setChan c e s).t = s.t := rfl
@[simp] theorem setChan_m (c : ChannelId) (e : ChannelState) (s : State) :
    (setChan c e s).m = s.m := rfl
@[simp] theorem setChan_frame (c : ChannelId) (e : ChannelState) (s : State) :
    (setChan c e s).frame = s.frame := rfl
@[simp] theorem setChan_shadow (c : ChannelId) (e : ChannelState) (s : State) :
    (setChan c e s).shadow = s.shadow := rfl
@[simp] theorem setChan_inputs (c : ChannelId) (e : ChannelState) (s : State) :
    (setChan c e s).inputs = s.inputs := rfl
@[simp] theorem setChan_line (c : ChannelId) (e : ChannelState) (s : State) :
    (setChan c e s).line = s.line := rfl
@[simp] theorem setChan_held (c : ChannelId) (e : ChannelState) (s : State) (d : ChannelId) :
    held (setChan c e s) d = held s d := rfl

/-! `setShadow` -/

@[simp] theorem setShadow_chan (c : ChannelId) (x : Option Cmd) (s : State) :
    (setShadow c x s).chan = s.chan := rfl
@[simp] theorem setShadow_phase (c : ChannelId) (x : Option Cmd) (s : State) :
    (setShadow c x s).phase = s.phase := rfl
@[simp] theorem setShadow_ch (c : ChannelId) (x : Option Cmd) (s : State) :
    (setShadow c x s).ch = s.ch := rfl
@[simp] theorem setShadow_t (c : ChannelId) (x : Option Cmd) (s : State) :
    (setShadow c x s).t = s.t := rfl
@[simp] theorem setShadow_m (c : ChannelId) (x : Option Cmd) (s : State) :
    (setShadow c x s).m = s.m := rfl
@[simp] theorem setShadow_frame (c : ChannelId) (x : Option Cmd) (s : State) :
    (setShadow c x s).frame = s.frame := rfl
@[simp] theorem setShadow_shadow (c : ChannelId) (x : Option Cmd) (s : State) :
    (setShadow c x s).shadow = s.shadow.set c x := rfl
@[simp] theorem setShadow_inputs (c : ChannelId) (x : Option Cmd) (s : State) :
    (setShadow c x s).inputs = s.inputs := rfl
@[simp] theorem setShadow_line (c : ChannelId) (x : Option Cmd) (s : State) :
    (setShadow c x s).line = s.line := rfl
@[simp] theorem setShadow_entry (c : ChannelId) (x : Option Cmd) (s : State) (d : ChannelId) :
    entry (setShadow c x s) d = entry s d := rfl

/-! `commandWrite` -/

@[simp] theorem commandWrite_chan (P : Params) (c : ChannelId) (v : Cmd) (s : State) :
    (commandWrite P c v s).chan = s.chan.set c (writeEntry P v (entry s c)) := rfl
@[simp] theorem commandWrite_phase (P : Params) (c : ChannelId) (v : Cmd) (s : State) :
    (commandWrite P c v s).phase = s.phase := rfl
@[simp] theorem commandWrite_ch (P : Params) (c : ChannelId) (v : Cmd) (s : State) :
    (commandWrite P c v s).ch = s.ch := rfl
@[simp] theorem commandWrite_t (P : Params) (c : ChannelId) (v : Cmd) (s : State) :
    (commandWrite P c v s).t = s.t := rfl
@[simp] theorem commandWrite_m (P : Params) (c : ChannelId) (v : Cmd) (s : State) :
    (commandWrite P c v s).m = s.m := rfl
@[simp] theorem commandWrite_frame (P : Params) (c : ChannelId) (v : Cmd) (s : State) :
    (commandWrite P c v s).frame = s.frame := rfl
@[simp] theorem commandWrite_shadow (P : Params) (c : ChannelId) (v : Cmd) (s : State) :
    (commandWrite P c v s).shadow = s.shadow := rfl
@[simp] theorem commandWrite_inputs (P : Params) (c : ChannelId) (v : Cmd) (s : State) :
    (commandWrite P c v s).inputs = s.inputs := rfl
@[simp] theorem commandWrite_line (P : Params) (c : ChannelId) (v : Cmd) (s : State) :
    (commandWrite P c v s).line = s.line := rfl
@[simp] theorem commandWrite_held (P : Params) (c : ChannelId) (v : Cmd) (s : State) (d : ChannelId) :
    held (commandWrite P c v s) d = held s d := rfl

/-! `advance` -/

@[simp] theorem advance_chan (P : Params) (c : ChannelId) (s : State) :
    (advance P c s).chan = s.chan.set c (advanceEntry P (entry s c)) := rfl
@[simp] theorem advance_phase (P : Params) (c : ChannelId) (s : State) :
    (advance P c s).phase = s.phase := rfl
@[simp] theorem advance_ch (P : Params) (c : ChannelId) (s : State) :
    (advance P c s).ch = s.ch := rfl
@[simp] theorem advance_t (P : Params) (c : ChannelId) (s : State) :
    (advance P c s).t = s.t := rfl
@[simp] theorem advance_m (P : Params) (c : ChannelId) (s : State) :
    (advance P c s).m = s.m := rfl
@[simp] theorem advance_frame (P : Params) (c : ChannelId) (s : State) :
    (advance P c s).frame = s.frame := rfl
@[simp] theorem advance_shadow (P : Params) (c : ChannelId) (s : State) :
    (advance P c s).shadow = s.shadow := rfl
@[simp] theorem advance_inputs (P : Params) (c : ChannelId) (s : State) :
    (advance P c s).inputs = s.inputs := rfl
@[simp] theorem advance_line (P : Params) (c : ChannelId) (s : State) :
    (advance P c s).line = s.line := rfl
@[simp] theorem advance_held (P : Params) (c : ChannelId) (s : State) (d : ChannelId) :
    held (advance P c s) d = held s d := rfl

/-! `emit` -/

@[simp] theorem emit_chan (level : Bool) (n : Nat) (s : State) :
    (emit level n s).chan = s.chan := rfl
@[simp] theorem emit_phase (level : Bool) (n : Nat) (s : State) :
    (emit level n s).phase = s.phase := rfl
@[simp] theorem emit_ch (level : Bool) (n : Nat) (s : State) :
    (emit level n s).ch = s.ch := rfl
@[simp] theorem emit_t (level : Bool) (n : Nat) (s : State) :
    (emit level n s).t = s.t + BitVec.ofNat 14 n := rfl
@[simp] theorem emit_m (level : Bool) (n : Nat) (s : State) :
    (emit level n s).m = s.m := rfl
@[simp] theorem emit_frame (level : Bool) (n : Nat) (s : State) :
    (emit level n s).frame = s.frame := rfl
@[simp] theorem emit_shadow (level : Bool) (n : Nat) (s : State) :
    (emit level n s).shadow = s.shadow := rfl
@[simp] theorem emit_inputs (level : Bool) (n : Nat) (s : State) :
    (emit level n s).inputs = s.inputs := rfl
@[simp] theorem emit_line (level : Bool) (n : Nat) (s : State) :
    (emit level n s).line = extendLine level n s.line := rfl
@[simp] theorem emit_entry (level : Bool) (n : Nat) (s : State) (d : ChannelId) :
    entry (emit level n s) d = entry s d := rfl
@[simp] theorem emit_held (level : Bool) (n : Nat) (s : State) (d : ChannelId) :
    held (emit level n s) d = held s d := rfl

/-! `pause` -/

@[simp] theorem pause_chan (n : Nat) (s : State) :
    (pause n s).chan = s.chan := rfl
@[simp] theorem pause_phase (n : Nat) (s : State) :
    (pause n s).phase = s.phase := rfl
@[simp] theorem pause_ch (n : Nat) (s : State) :
    (pause n s).ch = s.ch := rfl
@[simp] theorem pause_t (n : Nat) (s : State) :
    (pause n s).t = s.t + BitVec.ofNat 14 (n * Config.cycleTu) := rfl
@[simp] theorem pause_m (n : Nat) (s : State) :
    (pause n s).m = s.m := rfl
@[simp] theorem pause_frame (n : Nat) (s : State) :
    (pause n s).frame = s.frame := rfl
@[simp] theorem pause_shadow (n : Nat) (s : State) :
    (pause n s).shadow = s.shadow := rfl
@[simp] theorem pause_inputs (n : Nat) (s : State) :
    (pause n s).inputs = s.inputs := rfl
@[simp] theorem pause_line (n : Nat) (s : State) :
    (pause n s).line = extendLine false (n * Config.cycleTu) s.line := rfl
@[simp] theorem pause_entry (n : Nat) (s : State) (d : ChannelId) :
    entry (pause n s) d = entry s d := rfl
@[simp] theorem pause_held (n : Nat) (s : State) (d : ChannelId) :
    held (pause n s) d = held s d := rfl

/-! `padSlot` -/

@[simp] theorem padSlot_chan (s : State) :
    (padSlot s).chan = s.chan := rfl
@[simp] theorem padSlot_phase (s : State) :
    (padSlot s).phase = s.phase := rfl
@[simp] theorem padSlot_ch (s : State) :
    (padSlot s).ch = s.ch := rfl
@[simp] theorem padSlot_t (s : State) :
    (padSlot s).t = s.t + BitVec.ofNat 14 (Config.msgTu - s.t.toNat) := rfl
@[simp] theorem padSlot_m (s : State) :
    (padSlot s).m = s.m := rfl
@[simp] theorem padSlot_frame (s : State) :
    (padSlot s).frame = s.frame := rfl
@[simp] theorem padSlot_shadow (s : State) :
    (padSlot s).shadow = s.shadow := rfl
@[simp] theorem padSlot_inputs (s : State) :
    (padSlot s).inputs = s.inputs := rfl
@[simp] theorem padSlot_line (s : State) :
    (padSlot s).line = extendLine false (Config.msgTu - s.t.toNat) s.line := rfl
@[simp] theorem padSlot_entry (s : State) (d : ChannelId) :
    entry (padSlot s) d = entry s d := rfl
@[simp] theorem padSlot_held (s : State) (d : ChannelId) :
    held (padSlot s) d = held s d := rfl

/-! `dropPins` -/

@[simp] theorem dropPins_chan (s : State) :
    (dropPins s).chan = s.chan := rfl
@[simp] theorem dropPins_phase (s : State) :
    (dropPins s).phase = s.phase := rfl
@[simp] theorem dropPins_ch (s : State) :
    (dropPins s).ch = s.ch := rfl
@[simp] theorem dropPins_t (s : State) :
    (dropPins s).t = s.t := rfl
@[simp] theorem dropPins_m (s : State) :
    (dropPins s).m = s.m := rfl
@[simp] theorem dropPins_frame (s : State) :
    (dropPins s).frame = s.frame := rfl
@[simp] theorem dropPins_shadow (s : State) :
    (dropPins s).shadow = s.shadow := rfl
@[simp] theorem dropPins_inputs (s : State) :
    (dropPins s).inputs = s.inputs.tail := rfl
@[simp] theorem dropPins_line (s : State) :
    (dropPins s).line = s.line := rfl
@[simp] theorem dropPins_entry (s : State) (d : ChannelId) :
    entry (dropPins s) d = entry s d := rfl
@[simp] theorem dropPins_held (s : State) (d : ChannelId) :
    held (dropPins s) d = held s d := rfl

/-! `resetEdge` -/

@[simp] theorem resetEdge_chan (s : State) :
    (resetEdge s).chan = State.reset.chan := rfl
@[simp] theorem resetEdge_phase (s : State) :
    (resetEdge s).phase = State.reset.phase := rfl
@[simp] theorem resetEdge_ch (s : State) :
    (resetEdge s).ch = State.reset.ch := rfl
@[simp] theorem resetEdge_t (s : State) :
    (resetEdge s).t = State.reset.t := rfl
@[simp] theorem resetEdge_m (s : State) :
    (resetEdge s).m = State.reset.m := rfl
@[simp] theorem resetEdge_frame (s : State) :
    (resetEdge s).frame = State.reset.frame := rfl
@[simp] theorem resetEdge_shadow (s : State) :
    (resetEdge s).shadow = State.reset.shadow := rfl
@[simp] theorem resetEdge_inputs (s : State) :
    (resetEdge s).inputs = s.inputs := rfl
@[simp] theorem resetEdge_line (s : State) :
    (resetEdge s).line = State.reset.line := rfl
@[simp] theorem resetEdge_entry (s : State) (d : ChannelId) :
    entry (resetEdge s) d = entry State.reset d := rfl
@[simp] theorem resetEdge_held (s : State) (d : ChannelId) :
    held (resetEdge s) d = held State.reset d := rfl

/-! `beginSlot` -/

@[simp] theorem beginSlot_chan (P : Params) (c : ChannelId) (s : State) :
    (beginSlot P c s).chan = s.chan := rfl
@[simp] theorem beginSlot_phase (P : Params) (c : ChannelId) (s : State) :
    (beginSlot P c s).phase = .slot := rfl
@[simp] theorem beginSlot_ch (P : Params) (c : ChannelId) (s : State) :
    (beginSlot P c s).ch = c := rfl
@[simp] theorem beginSlot_t (P : Params) (c : ChannelId) (s : State) :
    (beginSlot P c s).t = 0 := rfl
@[simp] theorem beginSlot_m (P : Params) (c : ChannelId) (s : State) :
    (beginSlot P c s).m = 0 := rfl
@[simp] theorem beginSlot_frame (P : Params) (c : ChannelId) (s : State) :
    (beginSlot P c s).frame = frameOf P c s := rfl
@[simp] theorem beginSlot_shadow (P : Params) (c : ChannelId) (s : State) :
    (beginSlot P c s).shadow = s.shadow := rfl
@[simp] theorem beginSlot_inputs (P : Params) (c : ChannelId) (s : State) :
    (beginSlot P c s).inputs = s.inputs := rfl
@[simp] theorem beginSlot_line (P : Params) (c : ChannelId) (s : State) :
    (beginSlot P c s).line = s.line := rfl
@[simp] theorem beginSlot_entry (P : Params) (c : ChannelId) (s : State) (d : ChannelId) :
    entry (beginSlot P c s) d = entry s d := rfl
@[simp] theorem beginSlot_held (P : Params) (c : ChannelId) (s : State) (d : ChannelId) :
    held (beginSlot P c s) d = held s d := rfl

/-! `beginRound` -/

@[simp] theorem beginRound_chan (P : Params) (s : State) :
    (beginRound P s).chan = s.chan := rfl
@[simp] theorem beginRound_phase (P : Params) (s : State) :
    (beginRound P s).phase = .slot := rfl
@[simp] theorem beginRound_ch (P : Params) (s : State) :
    (beginRound P s).ch = 0 := rfl
@[simp] theorem beginRound_t (P : Params) (s : State) :
    (beginRound P s).t = 0 := rfl
@[simp] theorem beginRound_m (P : Params) (s : State) :
    (beginRound P s).m = 0 := rfl
@[simp] theorem beginRound_frame (P : Params) (s : State) :
    (beginRound P s).frame = frameOf P 0 s := rfl
@[simp] theorem beginRound_shadow (P : Params) (s : State) :
    (beginRound P s).shadow = s.shadow := rfl
@[simp] theorem beginRound_inputs (P : Params) (s : State) :
    (beginRound P s).inputs = s.inputs := rfl
@[simp] theorem beginRound_line (P : Params) (s : State) :
    (beginRound P s).line = [] := rfl
@[simp] theorem beginRound_entry (P : Params) (s : State) (d : ChannelId) :
    entry (beginRound P s) d = entry s d := rfl
@[simp] theorem beginRound_held (P : Params) (s : State) (d : ChannelId) :
    held (beginRound P s) d = held s d := rfl

end Sys2Proof.Machine
end

