-- ==== Sys2Proof/Laws/Line.lean ====
section
/-! SUPPORT. The laws of the recorded waveform: `extendLine` adds exactly one stretch, keeps the one form of the list, and
does not depend on how the stretch is split (R18). -/

namespace Sys2Proof.Machine

@[simp] theorem lineLength_nil : lineLength [] = 0 := rfl

@[simp] theorem lineLength_cons (r : Run) (rest : List Run) : lineLength (r :: rest) = r.len + lineLength rest := by
  simp [lineLength]

@[simp] theorem extendLine_zero (b : Bool) (line : List Run) : extendLine b 0 line = line := by simp [extendLine]

theorem extendLine_length (b : Bool) (n : Nat) (line : List Run) :
    lineLength (extendLine b n line) = lineLength line + n := by
  unfold extendLine
  split
  · omega
  · split
    · simp
    · split <;> simp <;> omega

/-- Splitting a stretch in two changes nothing. -/
theorem extendLine_add (b : Bool) (m n : Nat) (line : List Run) :
    extendLine b n (extendLine b m line) = extendLine b (m + n) line := by
  by_cases hm : m = 0
  · simp [hm]
  by_cases hn : n = 0
  · simp [hn]
  cases line with
  | nil => simp [extendLine, hm, hn]
  | cons r rest =>
    by_cases hr : r.level = b <;> simp [extendLine, hm, hn, hr, Nat.add_assoc]

theorem extendLine_wf (b : Bool) (n : Nat) (line : List Run) (h : lineWf line = true) :
    lineWf (extendLine b n line) = true := by
  by_cases hn : n = 0
  · simpa [hn] using h
  have hpos : 0 < n := Nat.pos_of_ne_zero hn
  match line, h with
  | [], _ => simp [extendLine, hn, lineWf, hpos]
  | [r], h =>
    by_cases hr : r.level = b
    · simp [extendLine, hn, hr, lineWf]; omega
    · simp [extendLine, hn, hr, lineWf, hpos, Ne.symm hr] at h ⊢; exact h
  | r :: q :: rest, h =>
    simp only [lineWf, Bool.and_eq_true, decide_eq_true_eq] at h
    by_cases hr : r.level = b
    · simp only [extendLine, hn, hr, lineWf, if_true, if_false, Bool.and_eq_true, decide_eq_true_eq]
      exact ⟨⟨by omega, by rw [← hr]; exact h.1.2⟩, h.2⟩
    · simp only [extendLine, hn, hr, lineWf, if_false, Bool.and_eq_true, decide_eq_true_eq]
      exact ⟨⟨hpos, by simpa using Ne.symm hr⟩, h⟩

/-- What a waveform shows after a stretch is added: the old levels, then the new one. -/
theorem levelAt_extendLine (b : Bool) (n : Nat) (line : List Run) (τ : Nat) :
    levelAt (extendLine b n line) τ =
      if τ < lineLength line then levelAt line τ else (decide (τ < lineLength line + n) && b) := by
  by_cases hn : n = 0
  · subst hn
    by_cases h : τ < lineLength line
    · simp [h]
    · simp only [extendLine_zero, h, if_false, Nat.add_zero, decide_false, Bool.false_and]
      cases line with
      | nil => rfl
      | cons r rest =>
        simp only [lineLength_cons] at h
        have h1 : ¬ τ < lineLength rest := by omega
        have h2 : ¬ τ < lineLength rest + r.len := by omega
        simp [levelAt, h1, h2]
  · cases line with
    | nil => simp [extendLine, hn, levelAt]
    | cons r rest =>
      by_cases hr : r.level = b
      · subst hr
        simp only [extendLine, hn, if_true, if_false, levelAt, lineLength_cons]
        by_cases h1 : τ < lineLength rest
        · simp [h1, Nat.lt_of_lt_of_le h1 (Nat.le_add_left _ _)]
        · by_cases h2 : τ < r.len + lineLength rest
          · have h3 : τ < lineLength rest + (r.len + n) := by omega
            have h4 : τ < lineLength rest + r.len := by omega
            simp [h1, h2, h3, h4]
          · have h3 : (τ < lineLength rest + (r.len + n)) = (τ < r.len + lineLength rest + n) := by
              simp; omega
            simp [h1, h2, h3]
      · simp [extendLine, hn, hr, levelAt, lineLength_cons, Nat.add_comm]

/-- A waveform shows 0 outside itself. -/
theorem levelAt_out (line : List Run) (τ : Nat) (h : lineLength line ≤ τ) : levelAt line τ = false := by
  have := levelAt_extendLine false 0 line τ
  simpa [Nat.not_lt.mpr h] using this

end Sys2Proof.Machine
end

