-- ==== Sys2Proof/Laws/Ops.lean ====
section
/-! SUPPORT. For each shared operation, what it can do, said once. -/

namespace Sys2Proof.Machine

/-! ### Channel entries -/

/-- An entry after a write of one entry. -/
theorem setChan_get (c d : ChannelId) (e : ChannelState) (s : State) :
    entry (setChan c e s) d = if c = d then e else entry s d := by
  by_cases h : c = d
  · subst h; simp [entry]
  · simp [entry, Fin.val_inj, h]

@[simp] theorem setChan_get_self (c : ChannelId) (e : ChannelState) (s : State) : entry (setChan c e s) c = e := by
  rw [setChan_get, if_pos rfl]

theorem setChan_get_other (c d : ChannelId) (e : ChannelState) (s : State) (h : c ≠ d) :
    entry (setChan c e s) d = entry s d := by
  rw [setChan_get, if_neg h]

theorem commandWrite_get (P : Params) (c d : ChannelId) (v : Cmd) (s : State) :
    entry (commandWrite P c v s) d = if c = d then writeEntry P v (entry s c) else entry s d :=
  setChan_get c d _ s

theorem advance_get (P : Params) (c d : ChannelId) (s : State) :
    entry (advance P c s) d = if c = d then advanceEntry P (entry s c) else entry s d :=
  setChan_get c d _ s

/-- A shadow entry after a write of one entry. -/
theorem setShadow_get (c d : ChannelId) (x : Option Cmd) (s : State) :
    held (setShadow c x s) d = if c = d then x else held s d := by
  by_cases h : c = d
  · subst h; simp [held]
  · simp [held, Fin.val_inj, h]

/-- Two states are equal when their fields are, the indexed ones entry by entry. -/
theorem State.eq_of_fields {s t : State} (h1 : ∀ c, entry s c = entry t c) (h2 : s.phase = t.phase)
    (h3 : s.ch = t.ch) (h4 : s.t = t.t) (h5 : s.m = t.m) (h6 : s.frame = t.frame)
    (h7 : ∀ c, held s c = held t c) (h8 : s.inputs = t.inputs) (h9 : s.line = t.line) : s = t := by
  obtain ⟨chan, ph, ch, t1, m, fr, sh, inp, li⟩ := s
  obtain ⟨chan', ph', ch', t1', m', fr', sh', inp', li'⟩ := t
  simp only at h2 h3 h4 h5 h6 h8 h9
  have e1 : chan = chan' := Vector.ext fun i hi => h1 ⟨i, hi⟩
  have e2 : sh = sh' := Vector.ext fun i hi => h7 ⟨i, hi⟩
  subst e1 h2 h3 h4 h5 h6 e2 h8 h9
  rfl

/-- A write of the entry that is already there changes nothing. -/
theorem setChan_entry (c : ChannelId) (s : State) : setChan c (entry s c) s = s := by
  refine State.eq_of_fields (fun d => ?_) rfl rfl rfl rfl rfl (fun _ => rfl) rfl rfl
  rw [setChan_get]
  split
  · next h => rw [h]
  · rfl

/-! ### Intake -/

theorem intake_idle (P : Params) (c : ChannelId) (v : Cmd) (s : State) (h : s.phase = .idle) :
    intake P c v s = commandWrite P c v s := if_pos h

theorem intake_busy (P : Params) (c : ChannelId) (v : Cmd) (s : State) (h : s.phase ≠ .idle) :
    intake P c v s = setShadow c (some v) s := if_neg h

/-! ### The advance of an entry -/

/-- Everything the advance of an entry can do (R135). -/
theorem advanceEntry_cases (P : Params) (e : ChannelState) :
    (advanceEntry P e = e ∧ (e.armed = false ∨ isContinuous P e.cmd = true)) ∨
    (e.armed = true ∧ isContinuous P e.cmd = false ∧ e.sends.toNat = 4 ∧
      advanceEntry P e = { e with armed := false, toggle := !e.toggle, sends := 0 }) ∨
    (e.armed = true ∧ isContinuous P e.cmd = false ∧ e.sends.toNat ≠ 4 ∧
      advanceEntry P e = { e with sends := BitVec.ofNat 3 (e.sends.toNat + 1) }) := by
  unfold advanceEntry
  by_cases h1 : e.armed <;> by_cases h2 : isContinuous P e.cmd <;> simp [h1, h2, Config.repeatQuota]
  by_cases h3 : e.sends.toNat = 4 <;> simp [h3]

/-! ### The end of a round -/

/-- An entry with a held write applied to it, if there is one (R166). -/
def commitEntry (P : Params) (x : Option Cmd) (e : ChannelState) : ChannelState :=
  match x with
  | some v => writeEntry P v e
  | none => e

theorem commitShadow_eq (P : Params) (c : ChannelId) (s : State) :
    commitShadow P c s = setShadow c none (setChan c (commitEntry P (held s c) (entry s c)) s) := by
  unfold commitShadow
  split
  · next v h => rw [h]; rfl
  · next h =>
    rw [h]
    refine State.eq_of_fields (fun d => ?_) rfl rfl rfl rfl rfl (fun d => ?_) rfl rfl
    · simp only [commitEntry, setShadow_entry, setChan_get]; split <;> simp_all
    · rw [setShadow_get]; simp only [setChan_held]; split <;> simp_all

/-- Everything the end of a round does (R166): each entry takes its held write, and the sequencer is at rest. -/
theorem roundEnd_spec (P : Params) (s : State) :
    (∀ c, entry (roundEnd P s) c = commitEntry P (held s c) (entry s c)) ∧
    (∀ c, held (roundEnd P s) c = none) ∧ (roundEnd P s).phase = .idle ∧ (roundEnd P s).ch = 0 ∧
    (roundEnd P s).t = 0 ∧ (roundEnd P s).m = 0 ∧ (roundEnd P s).frame = none ∧ (roundEnd P s).inputs = s.inputs ∧
    (roundEnd P s).line = s.line := by
  simp only [roundEnd, commitShadow_eq]
  refine ⟨fun c => ?_, fun c => ?_, rfl, rfl, rfl, rfl, rfl, rfl, rfl⟩
  · match c with
    | 0 => simp [setChan_get, setShadow_get]; rfl
    | 1 => simp [setChan_get, setShadow_get]; rfl
    | 2 => simp [setChan_get, setShadow_get]; rfl
    | 3 => simp [setChan_get, setShadow_get]; rfl
  · match c with
    | 0 => simp [setShadow_get]
    | 1 => simp [setShadow_get]
    | 2 => simp [setShadow_get]
    | 3 => simp [setShadow_get]

end Sys2Proof.Machine
end

