-- ==== Sys2Proof/Laws/Operands.lean ====
section
/-! SUPPORT. The operand forms at values in range, and everything the five command operations can do. -/

namespace Sys2Proof.Machine

@[simp] theorem channelOf_val (c : ChannelId) : channelOf c.val = some c := by simp [channelOf, c.isLt]

@[simp] theorem nibbleOf_toNat (d : Nibble) : nibbleOf d.toNat = some d := by
  have := d.isLt
  simp [nibbleOf, nibbleInRange]
  omega

@[simp] theorem directOf_toNat (d : DirectCode) : directOf d.toNat = some d := by
  have := d.isLt
  simp [directOf, directInRange]
  omega

@[simp] theorem selectOf_toNat (d : BitVec 1) : selectOf d.toNat = some d := by
  have := d.isLt
  simp [selectOf, selectInRange]
  omega

/-- Everything a command operation can do: take in a command, or be refused for its channel or for a code. -/
theorem issue_cases (P : Params) (c : Nat) (v : Option Cmd) (s : State) :
    (∃ d w, channelOf c = some d ∧ v = some w ∧ issue P c v s = .next (intake P d w s)) ∨
    (channelOf c = none ∧ issue P c v s = .refused .channelOutOfRange) ∨
    (v = none ∧ issue P c v s = .refused .codeOutOfRange) := by
  unfold issue
  split
  · next h => exact .inr (.inl ⟨h, rfl⟩)
  · exact .inr (.inr ⟨rfl, rfl⟩)
  · next h => exact .inl ⟨_, _, h, rfl, rfl⟩

/-- A well-formed command operation takes in one command, the same from every state. -/
theorem exec_command (i : Instr) (h : isCommand i = true) (w : i.WellFormed = true) :
    ∃ c v, channelArg i = some c.val ∧ ∀ s, exec i s = .next (intake Config.params c v s) := by
  cases i <;> simp only [isCommand, Bool.false_eq_true] at h <;>
    simp only [Instr.WellFormed, Bool.and_eq_true, channelInRange, decide_eq_true_eq] at w
  case setExtended c d =>
    exact ⟨⟨c, w.1⟩, _, rfl, fun s => by
      simp [exec, execSetExtended, issue, channelOf, w, extendedCmd, nibbleOf]; rfl⟩
  case setComboDirect c a ia b ib =>
    exact ⟨⟨c, w.1.1⟩, _, rfl, fun s => by
      simp [exec, execSetComboDirect, issue, channelOf, w, comboDirectCmd, directOf]; rfl⟩
  case setComboPwm c a ia b ib =>
    exact ⟨⟨c, w.1.1⟩, _, rfl, fun s => by
      simp [exec, execSetComboPwm, issue, channelOf, w, comboPwmCmd, nibbleOf]; rfl⟩
  case setSinglePwm c sel p inv =>
    exact ⟨⟨c, w.1.1⟩, _, rfl, fun s => by
      simp [exec, execSetSinglePwm, issue, channelOf, w, singlePwmCmd, nibbleOf, selectOf]; rfl⟩
  case setSingleCstid c sel d =>
    exact ⟨⟨c, w.1.1⟩, _, rfl, fun s => by
      simp [exec, execSetSingleCstid, issue, channelOf, w, singleCstidCmd, nibbleOf, selectOf]; rfl⟩

/-- A command operation that completes has taken in one command. -/
theorem exec_command_next (i : Instr) (h : isCommand i = true) (s t : State) (e : exec i s = .next t) :
    ∃ c v, t = intake Config.params c v s := by
  have key : ∀ c v, issue Config.params c v s = .next t → ∃ d w, t = intake Config.params d w s := by
    intro c v hi
    rcases issue_cases Config.params c v s with ⟨d, w, -, -, hn⟩ | ⟨-, hr⟩ | ⟨-, hr⟩
    · rw [hn] at hi
      exact ⟨d, w, (Host.Outcome.next.inj hi).symm⟩
    · rw [hr] at hi; cases hi
    · rw [hr] at hi; cases hi
  cases i <;> simp only [isCommand, Bool.false_eq_true] at h <;> exact key _ _ e

end Sys2Proof.Machine
end

