-- ==== Sys2Proof/Laws/PerInstr.lean ====
section
/-! SUPPORT. One lemma per constructor of `Instr`: the form in which the table gives each operation. -/

namespace Sys2Proof.Laws

open Sys2Proof Sys2Proof.Machine

/-- What the encoding of an operation is, for every configuration: a command operation presents a command write at the
port and nothing else, `TRANSMIT_ROUND` a round start and nothing else (R80, R82); a symbol has a mark of `MARK_CYCLES`
cycles (R78), and only the five commands and the round are presented at the port. -/
def CodeForm.Statement (i : Instr) : Prop :=
  ∀ P : Params,
    match encode P i with
    | .port p => p.rst = false ∧ p.cmdValid = isCommand i ∧ p.roundStart = !isCommand i
    | .symbol m _ => m = P.markCycles ∧ isCommand i = false
    | .lowLine _ => isCommand i = false

theorem CodeForm.setExtended (c d : Nat) : CodeForm.Statement (.setExtended c d) := fun _ => ⟨rfl, rfl, rfl⟩

theorem CodeForm.setComboDirect (c a : Nat) (ia : Bool) (b : Nat) (ib : Bool) :
    CodeForm.Statement (.setComboDirect c a ia b ib) := fun _ => ⟨rfl, rfl, rfl⟩

theorem CodeForm.setComboPwm (c a : Nat) (ia : Bool) (b : Nat) (ib : Bool) :
    CodeForm.Statement (.setComboPwm c a ia b ib) := fun _ => ⟨rfl, rfl, rfl⟩

theorem CodeForm.setSinglePwm (c sel p : Nat) (inv : Bool) : CodeForm.Statement (.setSinglePwm c sel p inv) :=
  fun _ => ⟨rfl, rfl, rfl⟩

theorem CodeForm.setSingleCstid (c sel d : Nat) : CodeForm.Statement (.setSingleCstid c sel d) :=
  fun _ => ⟨rfl, rfl, rfl⟩

theorem CodeForm.transmitRound : CodeForm.Statement .transmitRound := fun _ => ⟨rfl, rfl, rfl⟩

theorem CodeForm.idleSlot : CodeForm.Statement .idleSlot := fun _ => rfl

theorem CodeForm.mark : CodeForm.Statement .mark := fun _ => ⟨rfl, rfl⟩

theorem CodeForm.startStop : CodeForm.Statement .startStop := fun _ => ⟨rfl, rfl⟩

theorem CodeForm.bit1 : CodeForm.Statement .bit1 := fun _ => ⟨rfl, rfl⟩

theorem CodeForm.bit0 : CodeForm.Statement .bit0 := fun _ => ⟨rfl, rfl⟩

theorem CodeForm.pad : CodeForm.Statement .pad := fun _ => rfl

end Sys2Proof.Laws
end

