-- ==== Sys2Proof/Laws/Serializer.lean ====
section
/-! SUPPORT. The serializer's operations in one normal form: each emits a list of levels, one for each tu. -/

namespace Sys2Proof.Machine

/-- The levels of a list, one tu each, one after another. -/
def emitLevels (bs : List Bool) (s : State) : State := bs.foldl (fun s b => emit b 1 s) s

@[simp] theorem emitLevels_nil (s : State) : emitLevels [] s = s := rfl

@[simp] theorem emitLevels_cons (b : Bool) (bs : List Bool) (s : State) :
    emitLevels (b :: bs) s = emitLevels bs (emit b 1 s) := rfl

theorem emitLevels_append (as bs : List Bool) (s : State) :
    emitLevels (as ++ bs) s = emitLevels bs (emitLevels as s) := List.foldl_append

theorem emit_zero (b : Bool) (s : State) : emit b 0 s = s := by
  cases s; simp [emit]

/-- Two stretches at one level are one. -/
theorem emit_emit (b : Bool) (m n : Nat) (s : State) : emit b n (emit b m s) = emit b (m + n) s := by
  simp [emit, extendLine_add, BitVec.ofNat_add, BitVec.add_assoc]

theorem emit_eq_emitLevels (b : Bool) (n : Nat) (s : State) : emit b n s = emitLevels (List.replicate n b) s := by
  induction n generalizing s with
  | zero => exact emit_zero b s
  | succ n ih => rw [List.replicate_succ, emitLevels_cons, ← ih, emit_emit, Nat.add_comm]

/-- What emitting levels does to the state: the 14-bit clock of the slot and the waveform, nothing else. -/
theorem emitLevels_spec (bs : List Bool) (s : State) :
    emitLevels bs s = { s with t := s.t + BitVec.ofNat 14 bs.length, line := (emitLevels bs s).line } ∧
    lineLength (emitLevels bs s).line = lineLength s.line + bs.length ∧
    (lineWf s.line = true → lineWf (emitLevels bs s).line = true) ∧
    ∀ τ, levelAt (emitLevels bs s).line τ =
      if τ < lineLength s.line then levelAt s.line τ else bs.getD (τ - lineLength s.line) false := by
  induction bs generalizing s with
  | nil =>
    refine ⟨by simp, rfl, id, fun τ => ?_⟩
    split
    · rfl
    · next h => simp [levelAt_out s.line τ (by omega)]
  | cons b bs ih =>
    obtain ⟨h1, h2, h3, h4⟩ := ih (emit b 1 s)
    refine ⟨?_, ?_, fun h => h3 (extendLine_wf b 1 s.line h), fun τ => ?_⟩
    · rw [emitLevels_cons, h1]; simp [emit, BitVec.ofNat_add, add_comm, add_left_comm]
    · rw [emitLevels_cons, h2, emit_line, extendLine_length]; simp; omega
    · rw [emitLevels_cons, h4, emit_line, extendLine_length, levelAt_extendLine]
      by_cases ha : τ < lineLength s.line
      · simp [ha, Nat.lt_succ_of_lt ha]
      · by_cases hb : τ = lineLength s.line
        · subst hb; simp
        · have hc : ¬ τ < lineLength s.line + 1 := by omega
          have hd : τ - lineLength s.line = (τ - (lineLength s.line + 1)) + 1 := by omega
          simp [ha, hc, hd]

/-- The levels of one carrier cycle (R112). -/
def cycleLevels : List Bool := List.replicate Config.halfCycleTu true ++ List.replicate Config.halfCycleTu false

/-- The levels of a mark (R112). -/
def markLevels (P : Params) : List Bool := (List.replicate P.markCycles cycleLevels).flatten

/-- The levels of a symbol (R114). -/
def symbolLevels (P : Params) (y : Symbol) : List Bool :=
  markLevels P ++ List.replicate (pauseCycles y * Config.cycleTu) false

theorem carrierCycle_eq (s : State) : carrierCycle s = emitLevels cycleLevels s := by
  rw [carrierCycle, emit_eq_emitLevels, emit_eq_emitLevels, cycleLevels, emitLevels_append]

theorem iterate_carrierCycle (n : Nat) (s : State) :
    carrierCycle^[n] s = emitLevels (List.replicate n cycleLevels).flatten s := by
  induction n generalizing s with
  | zero => rfl
  | succ n ih =>
    rw [Function.iterate_succ_apply, ih, List.replicate_succ, List.flatten_cons, emitLevels_append, carrierCycle_eq]

/-- A mark emits its levels (R112). -/
theorem markBurst_eq (P : Params) (s : State) : markBurst P s = emitLevels (markLevels P) s :=
  iterate_carrierCycle P.markCycles s

/-- A symbol emits its levels (R114). -/
theorem sendSymbol_eq (P : Params) (s : State) (y : Symbol) :
    sendSymbol P s y = emitLevels (symbolLevels P y) s := by
  rw [sendSymbol, pause, emit_eq_emitLevels, markBurst_eq, symbolLevels, emitLevels_append]

theorem markLevels_length (P : Params) : (markLevels P).length = P.markTu := by
  simp [markLevels, cycleLevels, Params.markTu, Config.halfCycleTu, Config.cycleTu]

theorem symbolLevels_length (P : Params) (y : Symbol) : (symbolLevels P y).length = symTu P y := by
  simp [symbolLevels, markLevels_length, symTu]

/-- The symbols of a list emit their levels one after another. -/
theorem foldl_sendSymbol_eq (P : Params) (ys : List Symbol) (s : State) :
    ys.foldl (sendSymbol P) s = emitLevels (ys.flatMap (symbolLevels P)) s := by
  induction ys generalizing s with
  | nil => rfl
  | cons y ys ih => rw [List.foldl_cons, ih, sendSymbol_eq, List.flatMap_cons, emitLevels_append]

/-! ### The whole slot -/

theorem symbols_length (F : Frame) : (symbols F).length = 18 := by simp [symbols, payloadBits, Config.frameBits]

theorem flatMap_symbolLevels_length (P : Params) (F : Frame) :
    ((symbols F).flatMap (symbolLevels P)).length = symOffset P F 18 := by
  have key : ∀ ys : List Symbol, (ys.flatMap (symbolLevels P)).length = (ys.map (symTu P)).sum := by
    intro ys
    induction ys with
    | nil => rfl
    | cons y ys ih => simp [ih, symbolLevels_length]
  rw [key, symOffset, List.take_of_length_le (by rw [symbols_length])]

/-- The symbols of a slot last less than its 14-bit clock can count: 1300 tu for a start or a stop at most, 832 for a bit. -/
theorem symOffset_lt (P : Params) (F : Frame) : symOffset P F 18 < 2 ^ 14 := by
  have hm : P.markTu ≤ 286 := by
    have := P.markCyclesLess1.isLt
    simp only [Params.markTu, Params.markCycles, Config.cycleTu]
    omega
  have hb : ((payloadBits F).map (symTu P ∘ bitSymbol)).sum ≤ 16 * 832 := by
    refine (List.sum_le_card_nsmul _ 832 fun x hx => ?_).trans (by simp [payloadBits, Config.frameBits])
    obtain ⟨b, -, rfl⟩ := List.mem_map.mp hx
    cases b <;> simp [bitSymbol, symTu, pauseCycles, Config.pauseOne, Config.pauseZero, Config.cycleTu] <;> omega
  rw [symOffset, List.take_of_length_le (by rw [symbols_length])]
  simp only [symbols, List.map_cons, List.map_append, List.map_map, List.map_nil, List.sum_cons, List.sum_append,
    List.sum_nil, symTu, pauseCycles, Config.pauseStartStop, Config.cycleTu]
  omega

/-- The levels of a slot: those of its symbols and of the pad, or the pad alone (R118, R120). -/
def slotLevels (P : Params) (fr : Option Frame) : List Bool :=
  match fr with
  | some F => (symbols F).flatMap (symbolLevels P) ++ List.replicate (Config.msgTu - symOffset P F 18) false
  | none => List.replicate Config.msgTu false

/-- A slot emits its levels (R120). -/
theorem sendSlot_eq (P : Params) (fr : Option Frame) (s : State) :
    sendSlot P fr s = emitLevels (slotLevels P fr) { s with t := 0 } := by
  cases fr with
  | none =>
    simp only [sendSlot, padSlot, slotLevels, emit_eq_emitLevels]
    rfl
  | some F =>
    simp only [sendSlot, padSlot, slotLevels, emitLevels_append, foldl_sendSymbol_eq, emit_eq_emitLevels]
    have h := congrArg (fun u => u.t.toNat) (emitLevels_spec ((symbols F).flatMap (symbolLevels P)) { s with t := 0 }).1
    rw [flatMap_symbolLevels_length] at h
    rw [h, BitVec.ofNat_eq_ofNat, BitVec.zero_add, BitVec.toNat_ofNat, Nat.mod_eq_of_lt (symOffset_lt P F)]

end Sys2Proof.Machine
end

