-- ==== Sys2Proof/Laws/Step.lean ====
section
/-! SUPPORT. Everything one clock edge can do: its intake, the sequencer's action, and how the two commute in a round. -/

namespace Sys2Proof.Machine

/-! ### The intake -/

/-- What the port presents is a command operation. -/
theorem decodeCommand_isCommand (p : Pins) (i : Instr) (h : decodeCommand p = .ok i) : isCommand i = true := by
  unfold decodeCommand at h
  (repeat' split at h) <;> simp at h <;> subst h <;> rfl

/-- Everything the intake of an edge can do when it completes (R159, R165). -/
theorem takeCommand_next (p : Pins) (s t : State) (h : takeCommand p s = .next t) :
    (p.cmdValid = false ∧ t = s) ∨ (p.cmdValid = true ∧ ∃ c v, t = intake Config.params c v s) := by
  unfold takeCommand at h
  split at h
  · next hv =>
    split at h
    · next i hi => exact .inr ⟨hv, exec_command_next i (decodeCommand_isCommand p i hi) s t h⟩
    · cases h
  · next hv => exact .inl ⟨by simpa using hv, (Host.Outcome.next.inj h).symm⟩

/-- Everything a step can do when it completes (R167): reset, or the intake and then the sequencer's action. -/
theorem step_next (s t : State) (h : step s = .next t) :
    ((nextPins s).rst = true ∧ t = resetEdge (dropPins s)) ∨
    ((nextPins s).rst = false ∧ ∃ s', takeCommand (nextPins s) (dropPins s) = .next s' ∧
      t = tick Config.params (nextPins s).roundStart s') := by
  rw [show step s = edge (nextPins s) (dropPins s) from rfl, edge] at h
  split at h
  · next hr => exact .inl ⟨hr, (Host.Outcome.next.inj h).symm⟩
  · next hr =>
    split at h
    · next s' he => exact .inr ⟨by simpa using hr, s', he, (Host.Outcome.next.inj h).symm⟩
    · cases h
    · cases h

/-- The intake keeps the phase. -/
theorem intake_phase (P : Params) (c : ChannelId) (v : Cmd) (s : State) : (intake P c v s).phase = s.phase := by
  unfold intake
  split <;> rfl

/-! ### The sequencer -/

/-- In a round `round_start` is not read (R164). -/
theorem tick_busy (P : Params) (start : Bool) (s : State) (h : s.phase ≠ .idle) : tick P start s = tick P false s := by
  unfold tick
  split
  · next hi => exact absurd hi h
  · rfl
  · rfl

theorem recordPeriod_setShadow (P : Params) (c : ChannelId) (x : Option Cmd) (s : State) :
    recordPeriod P (setShadow c x s) = setShadow c x (recordPeriod P s) := by
  unfold recordPeriod
  simp only [setShadow_phase]
  by_cases h : s.phase = .idle
  · simp only [h, if_true]
  · simp only [h, if_false]; rfl

/-- The record keeps the phase. -/
theorem recordPeriod_phase (P : Params) (s : State) : (recordPeriod P s).phase = s.phase := by
  unfold recordPeriod
  split <;> rfl

/-- A write held when a round ends is the write made just after it (R166). -/
theorem roundEnd_setShadow (P : Params) (c : ChannelId) (v : Cmd) (s : State) :
    roundEnd P (setShadow c (some v) s) = commandWrite P c v (roundEnd P s) := by
  obtain ⟨e1, e2, e3, e4, e5, e6, e7, e8, e9⟩ := roundEnd_spec P s
  obtain ⟨f1, f2, f3, f4, f5, f6, f7, f8, f9⟩ := roundEnd_spec P (setShadow c (some v) s)
  refine State.eq_of_fields (fun d => ?_) ?_ ?_ ?_ ?_ ?_ (fun d => ?_) ?_ ?_
  · rw [f1, commandWrite_get, setShadow_get, e1, e1, setShadow_entry]
    by_cases hc : c = d
    · subst hc
      simp only [if_true, commitEntry]
      split
      · simp only [writeEntry]; split <;> rfl
      · rfl
    · simp only [hc, if_false]
  all_goals simp [*]

theorem slotBoundary_setShadow (P : Params) (c : ChannelId) (v : Cmd) (s : State) :
    slotBoundary P (setShadow c (some v) s) = intake P c v (slotBoundary P s) := by
  unfold slotBoundary
  simp only [setShadow_ch]
  by_cases h : s.ch.val < 3
  · simp only [h, if_true]
    rw [intake_busy P c v (beginSlot P (s.ch + 1) (advance P s.ch s)) (by simp)]
    rfl
  · simp only [h, if_false]
    unfold afterSlots
    by_cases h2 : 0 < P.roundMarginTu
    · simp only [h2, if_true]
      rw [intake_busy _ _ _ _ (by simp)]
      rfl
    · simp only [h2, if_false]
      rw [intake_idle P c v _ (roundEnd_spec P (advance P s.ch s)).2.2.1]
      exact roundEnd_setShadow P c v (advance P s.ch s)

/-- In a round a write before the sequencer's action is the same write after it: into `shadow` while the round goes on,
into `chan` when that action ends the round (R165, R166). -/
theorem tick_setShadow (P : Params) (start : Bool) (c : ChannelId) (v : Cmd) (s : State) (h : s.phase ≠ .idle) :
    tick P start (setShadow c (some v) s) = intake P c v (tick P start s) := by
  unfold tick
  simp only [setShadow_phase]
  split
  · next hi => exact absurd hi h
  · unfold slotEdge
    rw [recordPeriod_setShadow, setShadow_t]
    split
    · rw [intake_busy]
      · rfl
      · rw [show State.phase _ = (recordPeriod P s).phase from rfl, recordPeriod_phase]; exact h
    · exact slotBoundary_setShadow P c v (recordPeriod P s)
  · unfold marginEdge
    rw [recordPeriod_setShadow, setShadow_m]
    split
    · rw [intake_busy]
      · rfl
      · rw [show State.phase _ = (recordPeriod P s).phase from rfl, recordPeriod_phase]; exact h
    · rw [roundEnd_setShadow, intake_idle P c v _ (roundEnd_spec P (recordPeriod P s)).2.2.1]

/-- A slot boundary does not depend on the time at which it is taken. -/
theorem slotBoundary_t (P : Params) (x : SlotTime) (s : State) : slotBoundary P { s with t := x } = slotBoundary P s := by
  unfold slotBoundary
  dsimp only
  split
  · rfl
  · unfold afterSlots
    split <;> rfl

end Sys2Proof.Machine
end

