-- ==== Sys2Proof/Tests/Slice0.lean ====
section
/-! SUPPORT. Tests: the well-formedness smoke test, decoding of words written out from the spec's encodings, the spec's
test vectors (spec/95_test_vectors.md), one step of each operation, and for every statement with hypotheses a witness that
meets them. -/

namespace Sys2Proof.Tests

open Sys2Proof Sys2Proof.Machine

/-! ### Helpers -/

/-- The next state of an outcome, if there is one. -/
def nextOf (o : Host.Outcome State Fault Refusal) : Option State :=
  match o with
  | .next s => some s
  | .fault _ => none
  | .refused _ => none

/-- The refusal of an outcome, if there is one. -/
def refusalOf (o : Host.Outcome State Fault Refusal) : Option Refusal :=
  match o with
  | .next _ => none
  | .fault _ => none
  | .refused r => some r

/-- A property of the next state of an outcome, which must exist. -/
def nextHas (o : Host.Outcome State Fault Refusal) (p : State → Bool) : Bool :=
  match nextOf o with
  | some s => p s
  | none => false

/-- The reset state with one channel entry replaced. -/
def withEntry (c : ChannelId) (armed : Bool) (v : Cmd) (toggle : Bool) (sends : BitVec 3) : State :=
  setChan c { armed := armed, cmd := v, toggle := toggle, sends := sends } State.reset

/-- A state in a slot of channel `c` at time `t`, with the frame of that channel. -/
def inSlotOf (c : ChannelId) (t : Nat) (s : State) : State :=
  { s with phase := .slot, ch := c, t := BitVec.ofNat 14 t, m := 0, frame := frameOf Config.params c s }

/-- The same state with `p` presented at the coming edge. -/
def presenting (p : Pins) (s : State) : State := { s with inputs := [p] }

/-- A configuration with the given margin, the rest as in this machine. -/
def withMargin (M : Nat) : Params := { Config.params with roundMarginTu := M }

/-- The reset pin held. -/
def resetPins : Pins := { Pins.idle with rst := true }

/-- A round start without a command. -/
def startPins : Pins := { Pins.idle with roundStart := true }

/-- `SET_EXTENDED 0, 5` at the port (V6). -/
def writePins : Pins := { Pins.idle with cmdValid := true, cmdA := 5 }

/-- `SET_EXTENDED 0, 5` and a round start at one edge (V6). -/
def writeStartPins : Pins := { Pins.idle with cmdValid := true, cmdA := 5, roundStart := true }

/-! ### Well-formedness: each check refuses its ill-formed term (V7, U1, U2) -/

theorem test_wf_channel : (Instr.setExtended 4 0).WellFormed = false ∧ (Instr.setExtended 3 0).WellFormed = true := by
  decide

theorem test_wf_direct : (Instr.setComboDirect 0 4 false 0 false).WellFormed = false ∧
    (Instr.setComboDirect 0 0 false 4 false).WellFormed = false ∧
    (Instr.setComboDirect 0 3 false 3 false).WellFormed = true := by decide

theorem test_wf_nibble : (Instr.setComboPwm 0 16 false 0 false).WellFormed = false ∧
    (Instr.setComboPwm 0 0 false 16 false).WellFormed = false ∧ (Instr.setExtended 0 16).WellFormed = false ∧
    (Instr.setSinglePwm 0 0 16 false).WellFormed = false ∧ (Instr.setSingleCstid 0 0 16).WellFormed = false ∧
    (Instr.setComboPwm 0 15 false 15 false).WellFormed = true := by decide

theorem test_wf_select : (Instr.setSinglePwm 0 2 0 false).WellFormed = false ∧
    (Instr.setSingleCstid 0 2 0).WellFormed = false ∧ (Instr.setSinglePwm 0 1 15 true).WellFormed = true := by decide

/-- V7: out of range is refused by name; the nearest accepted operand is not. -/
theorem test_refusals : refusalOf (exec (.setExtended 4 0) State.reset) = some .channelOutOfRange ∧
    refusalOf (exec (.setComboDirect 0 4 false 0 false) State.reset) = some .codeOutOfRange ∧
    refusalOf (exec (.setComboPwm 0 16 false 0 false) State.reset) = some .codeOutOfRange ∧
    refusalOf (exec (.setExtended 3 0) State.reset) = none := by decide

/-! ### Decoding: every constructor from a word written out from the spec's encoding -/

/-- `0x206B`: f1 = 0010 (toggle 0, escape 0, ChannelId 10), f2 = 0000, f3 = 0110, f4 = 1011 (S2). -/
theorem test_frame_extended : decodeTableWord 16 0b0010000001101011 = some (.setExtended 2 6) := by decide

/-- `0x3194`: f2 = 0001, f3 = b ++ a = 10 01 (V2 row 9). -/
theorem test_frame_comboDirect : decodeTableWord 16 0b0011000110010100 = some (.setComboDirect 3 1 false 2 false) := by
  decide

/-- `0x6191`: escape, field 2 is output B = 0001, field 3 output A = 1001 (V2 row 15). -/
theorem test_frame_comboPwm : decodeTableWord 16 0b0110000110010001 = some (.setComboPwm 2 9 false 1 false) := by
  decide

/-- `0x3581`: f2 = 0 1 0 1, f3 = 1000 (V2 row 20). -/
theorem test_frame_singlePwm : decodeTableWord 16 0b0011010110000001 = some (.setSinglePwm 3 1 8 false) := by decide

/-- `0xA674`: f2 = 0 1 1 0, f3 = 0111 (V2 row 23). -/
theorem test_frame_singleCstid : decodeTableWord 16 0b1010011001110100 = some (.setSingleCstid 2 0 7) := by decide

/-- The port encodings of R80 and R82, signal by signal; `cmd_b` and `cmd_inv_b` are ignored by kinds 0, 3 and 4. -/
theorem test_port_commands :
    decodePort ⟨false, true, 2, 0, 6, 9, true, true, 1, false⟩ = .ok (.setExtended 2 6) ∧
    decodePort ⟨false, true, 3, 1, 1, 2, false, true, 1, false⟩ = .ok (.setComboDirect 3 1 false 2 true) ∧
    decodePort ⟨false, true, 2, 2, 7, 1, true, false, 1, false⟩ = .ok (.setComboPwm 2 7 true 1 false) ∧
    decodePort ⟨false, true, 0, 3, 3, 9, true, true, 0, false⟩ = .ok (.setSinglePwm 0 0 3 true) ∧
    decodePort ⟨false, true, 0, 4, 6, 9, true, true, 1, false⟩ = .ok (.setSingleCstid 0 1 6) := by decide

theorem test_port_round : decodePort ⟨false, false, 0, 0, 0, 0, false, false, 0, true⟩ = .ok .transmitRound := by decide

/-- R115 to R117 and R112: a mark of 6 cycles, and pauses of 39, 21, 10 cycles or none. -/
theorem test_symbols : decode Config.params (.symbol 6 39) = .ok .startStop ∧
    decode Config.params (.symbol 6 21) = .ok .bit1 ∧ decode Config.params (.symbol 6 10) = .ok .bit0 ∧
    decode Config.params (.symbol 6 0) = .ok .mark := by decide

theorem test_lowLines : decode Config.params (.lowLine false) = .ok .pad ∧
    decode Config.params (.lowLine true) = .ok .idleSlot := by decide

/-- R78, R84, R85: what is no operation is rejected. -/
theorem test_rejects : decodeTableWord 16 0x0800 = none ∧ decodeTableWord 16 0x0200 = none ∧
    decode Config.params (.symbol 6 38) = .error .notASymbol ∧
    decode Config.params (.symbol 5 39) = .error .notASymbol ∧
    decodePort ⟨false, true, 0, 5, 0, 0, false, false, 0, false⟩ = .error .notACommand := by decide

/-! ### The encoder (V1, V2, V3) -/

theorem test_invert_pwm : (List.range 16).map (fun x => (invertPwm (BitVec.ofNat 4 x)).toNat) =
    [0, 15, 14, 13, 12, 11, 10, 9, 8, 7, 6, 5, 4, 3, 2, 1] := by decide

theorem test_invert_direct : [0, 1, 2, 3].map (fun x => (invertDirect (BitVec.ofNat 2 x)).toNat) = [0, 2, 1, 3] := by
  decide

theorem test_frames_extended : encodeFrame Config.params (.extended 0) false 0 = 0x000F ∧
    encodeFrame Config.params (.extended 6) false 2 = 0x206B ∧
    encodeFrame Config.params (.extended 6) true 2 = 0xA063 ∧
    encodeFrame Config.params (.extended 15) true 3 = 0xB0FB := by decide

theorem test_frames_combo : encodeFrame Config.params (.comboDirect 1 2) false 0 = 0x0197 ∧
    encodeFrame Config.params (.comboDirect 3 3) true 3 = 0xB1FA ∧
    encodeFrame Config.params (.comboPwm 7 7) false 1 = 0x577A ∧
    encodeFrame Config.params (.comboPwm 9 1) false 2 = 0x6191 ∧
    encodeFrame Config.params (.comboPwm 15 15) true 3 = 0xFFF0 := by decide

theorem test_frames_single : encodeFrame Config.params (.singlePwm 0 13) false 0 = 0x04D6 ∧
    encodeFrame Config.params (.singlePwm 1 0) true 1 = 0x9503 ∧
    encodeFrame Config.params (.singleCstid 1 6) false 0 = 0x076E ∧
    encodeFrame Config.params (.singleCstid 1 15) true 3 = 0xB7FC := by decide

/-- V2, last sentence: row 19 with the sub-mode parameters swapped. -/
theorem test_frame_swapped : encodeFrame { Config.params with submodePwm := true } (.singlePwm 0 13) false 0 = 0x06D4 := by
  decide

theorem test_continuous : isContinuous Config.params (.singlePwm 0 7) = false ∧
    isContinuous Config.params (.singleCstid 1 6) = true ∧ isContinuous Config.params (.singleCstid 0 7) = true ∧
    isContinuous Config.params (.singleCstid 0 8) = false ∧ isContinuous Config.params (.comboDirect 0 0) = true := by
  decide

/-- V7: `MARK_CYCLES` = 0 and 12 are refused, 1 and 11 are not. -/
theorem test_build : (Config.params.build 0) = none ∧ (Config.params.build 12) = none ∧
    (Config.params.build 1).isSome = true ∧ (Config.params.build 11).isSome = true := by decide

/-! ### The operations, one at a time -/

theorem test_set_extended : nextHas (exec (.setExtended 2 6) State.reset) (fun t =>
    entry t 2 = ⟨true, .extended 6, false, 0⟩ ∧ entry t 1 = entry State.reset 1) = true := by decide

/-- V2, API vectors. -/
theorem test_set_comboDirect : nextHas (exec (.setComboDirect 0 3 true 0 true) State.reset) (fun t =>
    (entry t 0).cmd = .comboDirect 3 0) = true ∧
    nextHas (exec (.setComboDirect 0 1 false 1 true) State.reset) (fun t =>
      (entry t 0).cmd = .comboDirect 1 2) = true := by decide

theorem test_set_comboPwm : nextHas (exec (.setComboPwm 2 7 true 1 false) State.reset) (fun t =>
    (entry t 2).cmd = .comboPwm 9 1) = true ∧
    nextHas (exec (.setComboPwm 1 8 true 0 true) State.reset) (fun t => (entry t 1).cmd = .comboPwm 8 0) = true := by
  decide

theorem test_set_singlePwm : nextHas (exec (.setSinglePwm 0 0 3 true) State.reset) (fun t =>
    (entry t 0).cmd = .singlePwm 0 13) = true := by decide

/-- P4: a write during a round goes to `shadow`, and `chan` stays. -/
theorem test_set_singleCstid_busy : nextHas (exec (.setSingleCstid 1 0 0) (inSlotOf 0 100 State.reset)) (fun t =>
    held t 1 = some (.singleCstid 0 0) ∧ (entry t 1).armed = false) = true := by decide

/-- V5 case d: a second write keeps the counter. -/
theorem test_set_keeps_counter : nextHas (exec (.setExtended 0 1) (withEntry 0 true (.extended 1) false 2)) (fun t =>
    entry t 0 = ⟨true, .extended 1, false, 2⟩) = true := by decide

/-- V5 cases b, c and f. -/
theorem test_advance : advanceEntry Config.params ⟨true, .extended 1, false, 3⟩ = ⟨true, .extended 1, false, 4⟩ ∧
    advanceEntry Config.params ⟨true, .extended 1, false, 4⟩ = ⟨false, .extended 1, true, 0⟩ ∧
    advanceEntry Config.params ⟨true, .comboPwm 7 7, true, 0⟩ = ⟨true, .comboPwm 7 7, true, 0⟩ ∧
    advanceEntry Config.params ⟨true, .singleCstid 0 0, true, 4⟩ = ⟨false, .singleCstid 0 0, false, 0⟩ := by decide

/-- R112: six carrier cycles, 13 tu high and 13 tu low. -/
theorem test_mark : nextHas (exec .mark State.reset) (fun t => t.t = 156 ∧ t.line.length = 12 ∧
    t.line.head? = some ⟨false, 13⟩ ∧ t.line.getLast? = some ⟨true, 13⟩) = true := by decide

/-- R115, with the table's 1170 tu: the last run is the last half cycle and the pause. -/
theorem test_startStop : nextHas (exec .startStop State.reset) (fun t => t.t = 1170 ∧
    t.line.head? = some ⟨false, 13 + 1014⟩) = true := by decide

theorem test_bit1 : nextHas (exec .bit1 State.reset) (fun t => t.t = 702 ∧ t.line.head? = some ⟨false, 13 + 546⟩) =
    true := by decide

theorem test_bit0 : nextHas (exec .bit0 State.reset) (fun t => t.t = 416 ∧ t.line.head? = some ⟨false, 13 + 260⟩) =
    true := by decide

/-- V4: the pad of `0x577A` is 4144 tu. -/
theorem test_pad : nextHas (exec .pad { State.reset with t := 11856 }) (fun t =>
    t.t = 16000 ∧ t.line = [⟨false, 4144⟩]) = true := by decide

theorem test_idleSlot : nextHas (exec .idleSlot State.reset) (fun t => t.t = 16000 ∧ t.line = [⟨false, 16000⟩]) =
    true := by decide

/-- R164. -/
theorem test_round_ignored : nextHas (exec .transmitRound (inSlotOf 1 7 State.reset)) (fun t =>
    t = inSlotOf 1 7 State.reset) = true := by decide

/-- P2, round 5, with a margin of 1000: the fifth send closes channel 2 and flips its toggle. -/
theorem test_round : entry (transmitRound (withMargin 1000) (withEntry 2 true (.extended 6) false 4)) 2 =
    ⟨false, .extended 6, true, 0⟩ := by decide +kernel

/-- V4: the offsets of `0x577A`. -/
theorem test_offsets : (List.range 19).map (symOffset Config.params 0x577A) =
    [0, 1170, 1586, 2288, 2704, 3406, 3822, 4524, 5226, 5928, 6344, 7046, 7748, 8450, 9152, 9568, 10270, 10686,
      11856] := by decide +kernel

/-- V4: the point checks of `wave(0x577A, t)`. -/
theorem test_wave : [0, 12, 26, 142, 1170, 1586, 10828].all (wave Config.params 0x577A) = true ∧
    [13, 25, 143, 155, 156, 1169, 1326, 1585, 10829, 11855, 11856, 15999].any (wave Config.params 0x577A) = false := by
  decide +kernel

/-! ### One clock edge -/

/-- V6: a write and a start at one edge; the first period of the round is high, for slot 0 carries `0x005A`. -/
theorem test_edge_write_start : nextHas (step (presenting writeStartPins State.reset)) (fun t =>
    t.phase = .slot ∧ t.frame = some 0x005A ∧ irOut Config.params t = true ∧ t.inputs = []) = true := by
  decide +kernel

/-- V6: reset in the middle of a slot. -/
theorem test_edge_reset : nextHas (step (presenting resetPins (inSlotOf 0 5000 (withEntry 0 true (.extended 1) true 3))))
    (fun t => t.phase = .idle ∧ entry t 0 = ChannelState.reset ∧ t.t = 0) = true := by decide

/-- U3 and U2 at the port. -/
theorem test_edge_refused :
    refusalOf (step (presenting { Pins.idle with cmdValid := true, cmdKind := 5 } State.reset)) = some .notACommand ∧
    refusalOf (step (presenting { Pins.idle with cmdValid := true, cmdKind := 1, cmdA := 4 } State.reset)) =
      some .codeOutOfRange := by decide

/-- The fifth send: at the end of slot 0 channel 0 closes and slot 1 begins. -/
theorem test_edge_boundary : nextHas (step (inSlotOf 0 15999 (withEntry 0 true (.extended 1) false 4))) (fun t =>
    entry t 0 = ⟨false, .extended 1, true, 0⟩ ∧ t.ch = 1 ∧ t.t = 0) = true := by decide +kernel

/-- A table word placed in the reset state is run by the next step. -/
theorem test_fetch_word : nextHas (step (State.withFetchWord State.reset 16 0x206B)) (fun t =>
    entry t 2 = ⟨true, .extended 6, false, 0⟩) = true := by decide

/-! ### Witnesses: for every statement with hypotheses, concrete values that meet them, each clause at its boundaries -/

theorem witness_DecodeEncodeAgree : (Instr.setSinglePwm 3 1 15 true).WellFormed = true ∧
    (Instr.setComboDirect 3 3 true 3 true).WellFormed = true ∧ Instr.pad.WellFormed = true := by decide

theorem witness_FramesProducedExactlyOnce :
    (0x577A : Frame) = encodeFrame Config.params (.comboPwm 7 7) false 1 := by decide

theorem witness_ReservedEncodingsAreRejected :
    ((0x0800 : Frame).getLsbD 14 = false ∧ (0x0800 : Frame).getLsbD 11 = true) ∧
    ((0x0200 : Frame).getLsbD 14 = false ∧ (0x0200 : Frame).getLsbD 11 = false ∧ (0x0200 : Frame).getLsbD 10 = false ∧
      (0x0200 : Frame).getLsbD 9 = true) ∧
    (5 ≤ ({ Pins.idle with cmdKind := 5 }).cmdKind.toNat ∧ 5 ≤ ({ Pins.idle with cmdKind := 7 }).cmdKind.toNat) := by
  decide

theorem witness_InversionLaws : (1 ≤ 1 ∧ 1 ≤ 7) ∧ (1 ≤ 7 ∧ 7 ≤ 7) := by decide

/-- For the five statements `Set…StoresAndSends`: a state at rest, and states in a slot and in the margin. -/
theorem witness_SetStoresAndSends : State.reset.phase = .idle ∧ (inSlotOf 3 15999 State.reset).phase ≠ .idle ∧
    ({ State.reset with phase := .margin }).phase ≠ .idle := by decide

theorem witness_OperationsCompleteExactlyInRange : (Instr.setExtended 3 15).WellFormed = true ∧
    (Instr.setExtended 4 0).WellFormed = false ∧ (Instr.setSingleCstid 0 2 0).WellFormed = false := by decide

theorem witness_WritesToDifferentChannelsCommute : isCommand (.setExtended 0 0) = true ∧
    isCommand (.setComboPwm 3 15 true 0 false) = true ∧ (Instr.setExtended 0 0).WellFormed = true ∧
    (Instr.setComboPwm 3 15 true 0 false).WellFormed = true ∧
    channelArg (.setExtended 0 0) ≠ channelArg (.setComboPwm 3 15 true 0 false) := by decide

theorem witness_LaterWriteOverwrites : isCommand (.setExtended 3 0) = true ∧
    isCommand (.setComboPwm 3 15 true 0 false) = true ∧ (Instr.setExtended 3 0).WellFormed = true ∧
    (Instr.setComboPwm 3 15 true 0 false).WellFormed = true ∧
    channelArg (.setExtended 3 0) = channelArg (.setComboPwm 3 15 true 0 false) := by decide

/-- Its four clauses: Idle, continuous, the fifth send, and the first and the fourth send. -/
theorem witness_AdvanceRule : (entry State.reset 0).armed = false ∧
    ((entry (withEntry 1 true (.comboPwm 7 7) false 0) 1).armed = true ∧
      isContinuous Config.params (entry (withEntry 1 true (.comboPwm 7 7) false 0) 1).cmd = true) ∧
    ((entry (withEntry 2 true (.extended 6) false 4) 2).armed = true ∧
      isContinuous Config.params (entry (withEntry 2 true (.extended 6) false 4) 2).cmd = false ∧
      (entry (withEntry 2 true (.extended 6) false 4) 2).sends.toNat = 4) ∧
    (entry (withEntry 2 true (.extended 6) false 0) 2).sends.toNat < 4 ∧
    (entry (withEntry 2 true (.extended 6) false 3) 2).sends.toNat < 4 := by decide

theorem witness_FiveRoundsCloseACommand : (withEntry 2 true (.extended 6) false 0).phase = .idle ∧
    (∀ d : ChannelId, held (withEntry 2 true (.extended 6) false 0) d = none) ∧
    (entry (withEntry 2 true (.extended 6) false 0) 2).armed = true ∧
    isContinuous Config.params (entry (withEntry 2 true (.extended 6) false 0) 2).cmd = false ∧
    (entry (withEntry 2 true (.extended 6) false 0) 2).sends = 0 := by decide

theorem witness_ContinuousCommandIsSentForEver : (withEntry 1 true (.comboPwm 7 7) false 0).phase = .idle ∧
    (∀ d : ChannelId, held (withEntry 1 true (.comboPwm 7 7) false 0) d = none) ∧
    (entry (withEntry 1 true (.comboPwm 7 7) false 0) 1).armed = true ∧
    isContinuous Config.params (entry (withEntry 1 true (.comboPwm 7 7) false 0) 1).cmd = true := by decide

theorem witness_OnlyTheFifthSendClosesAChannel :
    (nextPins (inSlotOf 0 15999 (withEntry 0 true (.extended 1) false 4))).rst = false ∧
    nextHas (step (inSlotOf 0 15999 (withEntry 0 true (.extended 1) false 4))) (fun t =>
      (entry t 0).toggle ≠ (entry (inSlotOf 0 15999 (withEntry 0 true (.extended 1) false 4)) 0).toggle ∧
      (entry (inSlotOf 0 15999 (withEntry 0 true (.extended 1) false 4)) 0).armed = true ∧
      (entry t 0).armed = false) = true := by decide +kernel

theorem witness_PadAndIdleSlotHoldTheLineLow : State.reset.t.toNat ≤ 16000 ∧
    ({ State.reset with t := 16000 }).t.toNat ≤ 16000 := by
  decide

theorem witness_PadIsEmptyPastTheSlotEnd : 16000 ≤ ({ State.reset with t := 16000 }).t.toNat ∧
    16000 ≤ ({ State.reset with t := 16383 }).t.toNat := by decide

theorem witness_HighRunsOfASlot : (wave Config.params 0x577A 0 = true ∧ (0 = 0)) ∧
    (10816 < 16000 ∧ wave Config.params 0x577A 10816 = true ∧ wave Config.params 0x577A (10816 - 1) = false) := by
  decide +kernel

theorem witness_TransmitRoundSendsAllFourChannels : (withEntry 3 true (.singleCstid 1 15) false 4).phase = .idle ∧
    ∀ d : ChannelId, held (withEntry 3 true (.singleCstid 1 15) false 4) d = none := by decide

theorem witness_RoundStartWhileBusyIsIgnored : (inSlotOf 0 0 State.reset).phase ≠ .idle ∧
    ({ State.reset with phase := .margin }).phase ≠ .idle := by decide

theorem witness_StepRunsTheCommandOnThePort : (nextPins (presenting writePins State.reset)).rst = false ∧
    (nextPins (presenting writePins State.reset)).cmdValid = true ∧
    decodeCommand (nextPins (presenting writePins State.reset)) = .ok (.setExtended 0 5) ∧
    (Instr.setExtended 0 5).WellFormed = true ∧ (presenting writePins State.reset).phase = .idle ∧
    (nextPins (presenting writePins State.reset)).roundStart = false := by decide

/-- Both clauses: an edge with a command and a round start, and one with a command alone. -/
theorem witness_StepStartsARoundFromRest : State.reset.phase = .idle ∧ writeStartPins.rst = false ∧
    nextHas (takeCommand writeStartPins (dropPins (presenting writeStartPins State.reset))) (fun _ => true) = true ∧
    (nextPins (presenting writeStartPins State.reset)).roundStart = true ∧ writePins.rst = false ∧
    nextHas (takeCommand writePins (dropPins (presenting writePins State.reset))) (fun _ => true) = true ∧
    (nextPins (presenting writePins State.reset)).roundStart = false := by decide

theorem witness_StepWithoutACommandIsTheSequencer : (nextPins (presenting startPins State.reset)).rst = false ∧
    (nextPins (presenting startPins State.reset)).cmdValid = false ∧ (nextPins State.reset).rst = false ∧
    (nextPins State.reset).cmdValid = false := by decide

theorem witness_InsideASlotOnlyTimePasses : (presenting writePins (inSlotOf 3 15998 State.reset)).phase = .slot ∧
    (presenting writePins (inSlotOf 3 15998 State.reset)).t.toNat < 15999 ∧
    inRange (nextPins (presenting writePins (inSlotOf 3 15998 State.reset))) = true ∧
    (inSlotOf 0 0 State.reset).t.toNat < 15999 ∧ inRange (nextPins (inSlotOf 0 0 State.reset)) = true ∧
    (nextPins (inSlotOf 0 0 State.reset)).cmdValid = false := by decide

/-- Its three clauses: before the last slot, and after it with a margin of 1 and of 0. -/
theorem witness_SlotBoundaryAdvancesAndMovesOn : (inSlotOf 2 15999 State.reset).phase = .slot ∧
    (inSlotOf 2 15999 State.reset).t = 15999 ∧ (inSlotOf 2 15999 State.reset).ch.val < 3 ∧
    (inSlotOf 3 15999 State.reset).ch = 3 ∧ 0 < (withMargin 1).roundMarginTu ∧ (withMargin 0).roundMarginTu = 0 := by
  decide

theorem witness_MarginPassesAndEndsTheRound : ({ State.reset with phase := .margin, m := 998 }).phase = .margin ∧
    ({ State.reset with phase := .margin, m := 998 }).m + 1 < (withMargin 1000).roundMarginTu ∧
    ({ State.reset with phase := .margin, m := 999 }).m + 1 = (withMargin 1000).roundMarginTu := by decide

theorem witness_RoundEndAppliesHeldWrites : (({ State.reset with phase := .margin, m := 999 }).phase = .margin ∧
      ({ State.reset with phase := .margin, m := 999 }).m + 1 = (withMargin 1000).roundMarginTu) ∧
    ((inSlotOf 3 15999 State.reset).phase = .slot ∧ (inSlotOf 3 15999 State.reset).ch = 3 ∧
      (inSlotOf 3 15999 State.reset).t = 15999 ∧ (withMargin 0).roundMarginTu = 0) := by decide

/-- The last period of a round of this machine, whose margin is a free value. -/
def lastPeriod : State :=
  if Config.roundMarginTu = 0 then inSlotOf 3 15999 State.reset
  else { State.reset with phase := .margin, m := Config.roundMarginTu - 1 }

theorem witness_WriteAtTheRoundEndComesAfterIt : ((lastPeriod.phase = .margin ∧ lastPeriod.m + 1 = Config.roundMarginTu) ∨
      (lastPeriod.phase = .slot ∧ lastPeriod.ch = 3 ∧ lastPeriod.t = 15999 ∧ Config.roundMarginTu = 0)) ∧
    writePins.rst = false ∧ writePins.cmdValid = true ∧ decodeCommand writePins = .ok (.setExtended 0 5) ∧
    (Instr.setExtended 0 5).WellFormed = true := by
  refine ⟨?_, by decide⟩
  by_cases h : Config.roundMarginTu = 0
  · rw [lastPeriod, if_pos h]; exact .inr ⟨rfl, rfl, rfl, h⟩
  · rw [lastPeriod, if_neg h]; exact .inl ⟨rfl, Nat.sub_add_cancel (Nat.pos_of_ne_zero h)⟩

theorem witness_ResetTakesEverythingToItsResetValue :
    (nextPins (presenting resetPins (inSlotOf 1 5000 (withEntry 1 true (.extended 1) true 3)))).rst = true := by decide

/-- Its clauses: reset, in range, a kind of 5 and of 7, and a direct code of 4 in either operand. -/
theorem witness_StepCompletesExactlyInRange : (nextPins (presenting resetPins State.reset)).rst = true ∧
    inRange (nextPins (presenting writePins State.reset)) = true ∧
    ([{ Pins.idle with cmdValid := true, cmdKind := 5 }, { Pins.idle with cmdValid := true, cmdKind := 7 }].all
      (fun p => !p.rst && !inRange p && decide (5 ≤ p.cmdKind.toNat))) = true ∧
    ([{ Pins.idle with cmdValid := true, cmdKind := 1, cmdA := 4 },
      { Pins.idle with cmdValid := true, cmdKind := 1, cmdB := 15 }].all
      (fun p => !p.rst && !inRange p && decide (p.cmdKind.toNat < 5))) = true := by decide

/-- A state in the sixth period of slot 0, with a repeat-limited command sent three times. Its frame, by hand: f1 = 1000,
f2 = 0000, f3 = 0101, f4 = 1111 ^ 1000 ^ 0000 ^ 0101 = 0010. -/
def running : State :=
  { (withEntry 0 true (.extended 5) true 3) with
    phase := .slot
    t := 5
    frame := some 0x8052
    line := [⟨true, 5⟩] }

theorem witness_StepKeepsTheInvariant : Inv Config.params running ∧
    nextHas (step running) (fun _ => true) = true where
  left :=
    { sends_le := by decide
      unarmed_sends := by decide
      idle := fun h => by cases h
      slot := fun _ => by decide
      margin := fun h => by cases h
      line_wf := by decide
      line_idle := fun h => by cases h
      line_slot := fun _ => by decide
      line_margin := fun h => by cases h }
  right := by decide +kernel

theorem witness_MicroOperationsTouchOnlyClockAndLine :
    Instr.bit1 ∈ [Instr.mark, .startStop, .bit1, .bit0, .pad, .idleSlot] ∧
    nextHas (exec .bit1 running) (fun _ => true) = true := by decide

/-- The state in slot 0 at the start of its first symbol, with the given edges to come. -/
def atSymbol (t : Nat) (fr : Option Frame) (n : Nat) : State :=
  { State.reset with phase := .slot, t := BitVec.ofNat 14 t, frame := fr, inputs := List.replicate n Pins.idle ++ [startPins] }

/-- The first and the last symbol of a frame. -/
theorem witness_SlotEdgesRunTheSymbol : (atSymbol 0 (some 0x577A) 1170).phase = .slot ∧
    (symbols 0x577A)[0]? = some .startStop ∧ (symbols 0x577A)[17]? = some .startStop ∧
    (atSymbol 0 (some 0x577A) 1170).t.toNat = symOffset Config.params 0x577A 0 ∧
    (atSymbol 10686 (some 0x577A) 1170).t.toNat = symOffset Config.params 0x577A 17 ∧
    (atSymbol 0 (some 0x577A) 1170).inputs = List.replicate 1170 Pins.idle ++ [startPins] ∧
    (List.replicate 1170 Pins.idle).length = symTu Config.params .startStop ∧
    ∀ p ∈ List.replicate 1170 Pins.idle, quiet p = true := by
  refine ⟨rfl, by decide, by decide, rfl, by decide +kernel, rfl, List.length_replicate.trans (by decide), fun p hp => ?_⟩
  rw [List.eq_of_mem_replicate hp]; rfl

theorem witness_SlotEdgesRunMarkPadAndIdleSlot : (atSymbol 0 (some 0x577A) 156).phase = .slot ∧
    (atSymbol 0 (some 0x577A) 156).t.toNat = symOffset Config.params 0x577A 0 ∧
    (atSymbol 11856 (some 0x577A) 4144).t.toNat = symOffset Config.params 0x577A 18 ∧
    Config.params.markTu = 156 ∧ symOffset Config.params 0x577A 18 = 11856 ∧
    (List.replicate 4144 Pins.idle).length = 16000 - (atSymbol 11856 (some 0x577A) 4144).t.toNat ∧
    (atSymbol 0 none 16000).frame = none ∧ (atSymbol 0 none 16000).t = 0 ∧
    (List.replicate 16000 Pins.idle).length = 16000 ∧ ∀ n, ∀ p ∈ List.replicate n Pins.idle, quiet p = true := by
  refine ⟨rfl, rfl, by decide +kernel, by decide, by decide +kernel, List.length_replicate, rfl, rfl, List.length_replicate, fun n p hp => ?_⟩
  rw [List.eq_of_mem_replicate hp]; rfl

theorem witness_SequencerRunsTheRound : (0 < (withMargin 1).roundTu ∧ 63999 < (withMargin 1).roundTu) ∧
    64000 < (withMargin 1).roundTu := by decide

/-- A whole round of port values after the start: a write at its first edge, then nothing. -/
def aRound : List Pins := (List.replicate Config.params.roundTu Pins.idle).set 0 writePins

theorem aRound_inRange : ∀ p ∈ aRound, inRange p = true := by
  intro p hp
  rcases List.mem_or_eq_of_mem_set hp with h | h
  · rw [List.eq_of_mem_replicate h]; rfl
  · rw [h]; rfl

theorem witness_RoundTimeline : ({ State.reset with inputs := writeStartPins :: aRound }).phase = .idle ∧
    writeStartPins.roundStart = true ∧ inRange writeStartPins = true ∧ (∀ q ∈ aRound, inRange q = true) ∧
    aRound.length = Config.params.roundTu ∧
    nextHas (takeCommand writeStartPins { State.reset with inputs := [] }) (fun _ => true) = true ∧
    63999 < Config.params.roundTu := by
  refine ⟨rfl, rfl, by decide, aRound_inRange, by simp [aRound], by decide, ?_⟩
  have h : Config.params.roundTu = 64000 + Config.roundMarginTu := rfl
  omega

theorem witness_QuietEdgesRunTheRound : (withEntry 1 true (.comboPwm 7 7) false 0).phase = .idle ∧
    startPins.roundStart = true ∧ quiet startPins = true ∧
    (∀ q ∈ List.replicate Config.params.roundTu Pins.idle, quiet q = true) ∧
    (List.replicate Config.params.roundTu Pins.idle).length = Config.params.roundTu := by
  refine ⟨rfl, rfl, rfl, fun q hq => ?_, List.length_replicate⟩
  rw [List.eq_of_mem_replicate hq]; rfl

theorem witness_RoundWithWritesRefinesOperations :
    (withEntry 1 true (.comboPwm 7 7) false 0).phase = .idle ∧
    (∀ d : ChannelId, held (withEntry 1 true (.comboPwm 7 7) false 0) d = none) ∧
    writeStartPins.roundStart = true ∧ inRange writeStartPins = true ∧ (∀ q ∈ aRound, inRange q = true) ∧
    aRound.length = Config.params.roundTu :=
  ⟨rfl, by decide, rfl, by decide, aRound_inRange, by simp [aRound]⟩

/-- A run of two edges that stays at rest, the first of them with a write. -/
theorem witness_EveryRunRefinesOperations :
    ({ State.reset with inputs := [writePins, Pins.idle] }).phase = .idle ∧
    (∀ d : ChannelId, held { State.reset with inputs := [writePins, Pins.idle] } d = none) ∧
    (∀ q ∈ [writePins, Pins.idle], inRange q = true) ∧
    nextHas (Host.Core.run Sys2Proof.core 2 { State.reset with inputs := [writePins, Pins.idle] }) (fun t =>
      t.phase = .idle) = true := by decide +kernel

theorem witness_TheRecordIsNeverRead : nextHas (step running) (fun _ => true) = true := by decide +kernel

theorem witness_CallerCannotDisturbARound : running.phase ≠ .idle ∧ writePins.rst = false ∧ startPins.rst = false ∧
    nextHas (step { running with inputs := [writePins] }) (fun _ => true) = true ∧
    nextHas (step { running with inputs := [startPins] }) (fun _ => true) = true := by decide +kernel

theorem witness_ConfigurationsInRangeOnly :
    ((Config.params.build 1).map Params.markCycles, (Config.params.build 11).map Params.markCycles) =
      (some 1, some 11) := by decide

end Sys2Proof.Tests
end

/-! PROOFS. What the mark and the three symbols put on the line (R112, R114 to R117), and which configurations are built
(U7, R122). -/

namespace Sys2Proof

theorem Params.markTu_eq (P : Params) : P.markTu = 26 * P.markCycles := Nat.mul_comm _ _

end Sys2Proof

namespace Sys2Proof.Machine

/-! ### The levels of a mark and of a symbol -/

theorem cycleLevels_length : cycleLevels.length = 26 := by decide

/-- A low stretch at the end shows what a list of levels shows past its end. -/
theorem getD_append_lows (bs : List Bool) (n k : Nat) :
    (bs ++ List.replicate n false).getD k false = bs.getD k false := by
  by_cases h : k < bs.length
  · rw [List.getD_append _ _ _ _ h]
  · have hk : bs.length ≤ k := Nat.le_of_not_lt h
    rw [List.getD_append_right _ _ _ _ hk, List.getD_eq_default _ _ hk, List.getD_eq_getElem?_getD,
      List.getElem?_getD_replicate_default_eq]

theorem cycleLevels_getD (k : Nat) : cycleLevels.getD k false = decide (k < 13) := by
  rw [cycleLevels, getD_append_lows, Config.halfCycleTu]
  by_cases h : k < 13
  · rw [List.getD_replicate _ h, decide_eq_true h]
  · rw [List.getD_eq_default _ _ (by simpa using h), decide_eq_false h]

/-- Carrier cycles one after another have period 26, and past the last of them `getD` gives its default. -/
theorem replicate_cycleLevels_getD (n k : Nat) :
    (List.replicate n cycleLevels).flatten.getD k false = (decide (k < 26 * n) && decide (k % 26 < 13)) := by
  induction n generalizing k with
  | zero => simp
  | succ n ih =>
    rw [List.replicate_succ, List.flatten_cons]
    by_cases h : k < 26
    · have hk : k < 26 * (n + 1) := by omega
      rw [List.getD_append _ _ _ _ (cycleLevels_length ▸ h), cycleLevels_getD, Nat.mod_eq_of_lt h]
      simp [hk]
    · have hin : k - 26 < 26 * n ↔ k < 26 * (n + 1) := by omega
      have hmod : (k - 26) % 26 = k % 26 := by omega
      rw [List.getD_append_right _ _ _ _ (by rw [cycleLevels_length]; omega), cycleLevels_length, ih, hmod]
      simp only [hin]

/-- The level of a mark at each offset (R112). -/
theorem markLevels_getD (P : Params) (k : Nat) :
    (markLevels P).getD k false = (decide (k < P.markTu) && decide (k % 26 < 13)) := by
  rw [markLevels, replicate_cycleLevels_getD, Params.markTu_eq]

/-- The level of a symbol at each offset: that of its mark, the pause being low (R114). -/
theorem symbolLevels_getD (P : Params) (y : Symbol) (k : Nat) :
    (symbolLevels P y).getD k false = (decide (k < P.markTu) && decide (k % 26 < 13)) := by
  rw [symbolLevels, getD_append_lows, markLevels_getD]

/-! ### The line after levels are emitted -/

theorem levelAt_emitLevels_old (bs : List Bool) (s : State) (τ : Nat) (h : τ < lineLength s.line) :
    levelAt (emitLevels bs s).line τ = levelAt s.line τ := by
  obtain ⟨-, -, -, hlevel⟩ := emitLevels_spec bs s
  rw [hlevel, if_pos h]

theorem levelAt_emitLevels_new (bs : List Bool) (s : State) (k : Nat) :
    levelAt (emitLevels bs s).line (lineLength s.line + k) = bs.getD k false := by
  obtain ⟨-, -, -, hlevel⟩ := emitLevels_spec bs s
  rw [hlevel, if_neg (by omega), Nat.add_sub_cancel_left]

/-! ### The operations -/

theorem exec_mark (s : State) : exec .mark s = .next (emitLevels (markLevels Config.params) s) :=
  congrArg Host.Outcome.next (markBurst_eq Config.params s)

theorem exec_symbolOp (y : Symbol) (s : State) :
    exec (symbolOp y) s = .next (emitLevels (symbolLevels Config.params y) s) := by
  rw [← sendSymbol_eq]
  cases y <;> rfl

/-- Settles O21: a mark emits the levels of its carrier cycles, whose period is 26 tu. -/
theorem markEmitsTheCarrier : Obligations.MarkEmitsTheCarrier := by
  intro s
  rw [← Params.markTu_eq, ← markLevels_length]
  obtain ⟨hstate, hlength, -, -⟩ := emitLevels_spec (markLevels Config.params) s
  refine ⟨_, exec_mark s, hstate, hlength, levelAt_emitLevels_old _ s, fun k hk => ?_⟩
  rw [markLevels_length] at hk
  rw [levelAt_emitLevels_new, markLevels_getD, decide_eq_true hk, Bool.true_and]

/-- Settles O22: a symbol emits the levels of its mark, then low ones for its pause. -/
theorem symbolsEmitMarkAndPause : Obligations.SymbolsEmitMarkAndPause := by
  intro y s pauseTu markTu
  have hmark : Config.params.markTu = markTu := Params.markTu_eq Config.params
  have hpause : pauseCycles y * Config.cycleTu = pauseTu := by cases y <;> rfl
  have hsize : (symbolLevels Config.params y).length = markTu + pauseTu := by
    rw [symbolLevels_length, symTu, hmark, hpause]
  obtain ⟨hstate, hlength, -, -⟩ := emitLevels_spec (symbolLevels Config.params y) s
  rw [hsize] at hstate hlength
  refine ⟨_, exec_symbolOp y s, hstate, hlength, levelAt_emitLevels_old _ s, fun k _ => ?_⟩
  rw [levelAt_emitLevels_new, symbolLevels_getD, hmark]

end Sys2Proof.Machine

namespace Sys2Proof

/-! ### Configurations -/

theorem Params.build_isSome (P : Params) (n : Nat) : (P.build n).isSome = true ↔ 1 ≤ n ∧ n ≤ 11 := by
  unfold Params.build
  split
  · next h => exact iff_of_true rfl h
  · next h => exact iff_of_false Bool.false_ne_true h

/-- Everything that building a configuration changes: it stores the number given. -/
theorem Params.build_eq_some {P Q : Params} {n : Nat} (h : P.build n = some Q) :
    Q.markCycles = n ∧ Q = { P with markCyclesLess1 := Q.markCyclesLess1 } := by
  unfold Params.build at h
  split at h
  · next hn =>
    cases h
    exact ⟨Nat.sub_add_cancel hn.1, rfl⟩
  · cases h

/-- Settles O54: the derived durations follow from the stored number and the unchanged margin. -/
theorem configurationsInRangeOnly : Obligations.ConfigurationsInRangeOnly := by
  intro P n
  refine ⟨P.build_isSome n, fun Q hQ => ?_⟩
  obtain ⟨hcycles, hrest⟩ := Params.build_eq_some hQ
  have hmargin : Q.roundMarginTu = P.roundMarginTu := by rw [hrest]
  refine ⟨hcycles, ?_, ?_, hrest⟩
  · rw [Params.markTu_eq, hcycles]
  · rw [Params.roundTu, hmargin, Config.nChannels, Config.msgTu]

end Sys2Proof

/-! PROOFS. The state (R20 to R40): its values after reset, its outputs, the invariant, which steps can close a channel,
and that the recorded waveform is read by nothing. -/

namespace Sys2Proof

theorem Params.roundTu_eq (P : Params) : P.roundTu = 64000 + P.roundMarginTu := rfl

end Sys2Proof

namespace Sys2Proof.Machine

/-! ### The state after reset, and the outputs of a state -/

@[simp] theorem entry_reset (c : ChannelId) : entry State.reset c = ChannelState.reset := by
  match c with
  | 0 | 1 | 2 | 3 => rfl

@[simp] theorem held_reset (c : ChannelId) : held State.reset c = none := by
  match c with
  | 0 | 1 | 2 | 3 => rfl

/-- Settles O39: every entry is `ChannelState.reset`, no write is held, and at rest both outputs are 0. -/
theorem resetStateValues : Obligations.ResetStateValues := by
  refine ⟨fun c => ?_, rfl, rfl, rfl, rfl, rfl, rfl, rfl⟩
  rw [entry_reset, held_reset]
  exact ⟨rfl, rfl, rfl, rfl⟩

theorem busy_iff (s : State) : busy s = true ↔ s.phase ≠ .idle := by simp [busy]

theorem slotLevel_iff (P : Params) (fr : Option Frame) (t : Nat) :
    slotLevel P fr t = true ↔ ∃ F, fr = some F ∧ wave P F t = true := by
  cases fr <;> simp [slotLevel]

theorem irOut_iff (P : Params) (s : State) :
    irOut P s = true ↔ s.phase = .slot ∧ ∃ F, s.frame = some F ∧ wave P F s.t.toNat = true := by
  rw [irOut, Bool.and_eq_true, decide_eq_true_eq, slotLevel_iff]

/-- Settles O41: `busy` and `ir_out` by their equivalences; the status view shows the entry itself. -/
theorem outputsOfEveryState : Obligations.OutputsOfEveryState :=
  fun P s => ⟨busy_iff s, irOut_iff P s, fun _ => ⟨rfl, rfl, rfl⟩⟩

/-! ### The step and the sequencer's action, case by case -/

theorem step_of_reset (s : State) (h : (nextPins s).rst = true) : step s = .next (resetEdge (dropPins s)) :=
  if_pos h

theorem step_of_takeCommand (s s' : State) (h : (nextPins s).rst = false)
    (htake : takeCommand (nextPins s) (dropPins s) = .next s') :
    step s = .next (tick Config.params (nextPins s).roundStart s') := by
  rw [show step s = edge (nextPins s) (dropPins s) from rfl, edge, htake]
  simp [h]

theorem tick_idle (P : Params) (start : Bool) (s : State) (h : s.phase = .idle) :
    tick P start s = if start then beginRound P s else s := by
  unfold tick
  rw [h]

/-- In a slot one more period is recorded before the sequencer moves (R161, log 3). -/
theorem tick_slot (P : Params) (start : Bool) (s : State) (h : s.phase = .slot) :
    tick P start s = slotEdge P { s with line := extendLine (irOut P s) 1 s.line } := by
  unfold tick recordPeriod
  rw [h]
  rfl

/-- In the margin one more period is recorded before the sequencer moves (R163, log 3). -/
theorem tick_margin (P : Params) (start : Bool) (s : State) (h : s.phase = .margin) :
    tick P start s = marginEdge P { s with line := extendLine (irOut P s) 1 s.line } := by
  unfold tick recordPeriod
  rw [h]
  rfl

/-! ### What an operation makes of one channel entry -/

/-- Everything an intake can do to an entry: at rest it may write it, in a round it leaves it (R159, R165). -/
theorem intake_entry (P : Params) (c d : ChannelId) (v : Cmd) (s : State) :
    (∃ x, entry (intake P c v s) d = commitEntry P x (entry s d)) ∧
    (s.phase ≠ .idle → entry (intake P c v s) d = entry s d) := by
  by_cases hp : s.phase = .idle
  · refine ⟨?_, fun h => absurd hp h⟩
    rw [intake_idle P c v s hp, commandWrite_get]
    split
    · next hcd => exact ⟨some v, by rw [hcd]; rfl⟩
    · exact ⟨none, rfl⟩
  · have hkeep : entry (intake P c v s) d = entry s d := by rw [intake_busy P c v s hp, setShadow_entry]
    exact ⟨⟨none, hkeep⟩, fun _ => hkeep⟩

theorem afterSlots_entry (P : Params) (s : State) (c : ChannelId) :
    ∃ x, entry (afterSlots P s) c = commitEntry P x (entry s c) := by
  unfold afterSlots
  split
  · exact ⟨none, rfl⟩
  · exact ⟨_, (roundEnd_spec P s).1 c⟩

/-- A slot boundary advances the entry of its own channel alone, and may then apply held writes (R142, R162, R166). -/
theorem slotBoundary_entry (P : Params) (s : State) (c : ChannelId) :
    ∃ x, entry (slotBoundary P s) c =
      commitEntry P x (if s.ch = c then advanceEntry P (entry s s.ch) else entry s c) := by
  rw [← advance_get]
  unfold slotBoundary
  split
  · exact ⟨none, rfl⟩
  · exact afterSlots_entry P (advance P s.ch s) c

theorem slotEdge_entry (P : Params) (s : State) (c : ChannelId) :
    (∃ x, entry (slotEdge P s) c = commitEntry P x (entry s c)) ∨
    (s.ch = c ∧ 15999 ≤ s.t.toNat ∧ ∃ x, entry (slotEdge P s) c = commitEntry P x (advanceEntry P (entry s c))) := by
  unfold slotEdge
  split
  · exact .inl ⟨none, rfl⟩
  · next ht =>
    obtain ⟨x, hx⟩ := slotBoundary_entry P s c
    split at hx
    · next hc =>
      subst hc
      exact .inr ⟨rfl, Nat.le_of_not_lt ht, x, hx⟩
    · exact .inl ⟨x, hx⟩

theorem marginEdge_entry (P : Params) (s : State) (c : ChannelId) :
    ∃ x, entry (marginEdge P s) c = commitEntry P x (entry s c) := by
  unfold marginEdge
  split
  · exact ⟨none, rfl⟩
  · exact ⟨_, (roundEnd_spec P s).1 c⟩

/-- Everything the sequencer can do to an entry: apply a held write, after an advance only at the boundary that ends the
slot of that channel (R135, R162, R166). -/
theorem tick_entry (P : Params) (start : Bool) (s : State) (c : ChannelId) :
    (∃ x, entry (tick P start s) c = commitEntry P x (entry s c)) ∨
    (s.phase = .slot ∧ s.ch = c ∧ 15999 ≤ s.t.toNat ∧
      ∃ x, entry (tick P start s) c = commitEntry P x (advanceEntry P (entry s c))) := by
  cases hp : s.phase with
  | idle =>
    rw [tick_idle P start s hp]
    refine .inl ⟨none, ?_⟩
    split <;> rfl
  | slot =>
    rw [tick_slot P start s hp]
    exact (slotEdge_entry P _ c).imp_right fun h => ⟨rfl, h⟩
  | margin =>
    rw [tick_margin P start s hp]
    exact .inl (marginEdge_entry P _ c)

/-! ### Which steps close a channel -/

/-- From the entry `e` to the entry `e'` no toggle flips and no channel becomes Idle. -/
def StaysOpen (e e' : ChannelState) : Prop := e'.toggle = e.toggle ∧ (e.armed = true → e'.armed = true)

theorem StaysOpen.trans {e f g : ChannelState} (h : StaysOpen e f) (h' : StaysOpen f g) : StaysOpen e g :=
  ⟨h'.1.trans h.1, fun ha => h'.2 (h.2 ha)⟩

theorem commitEntry_staysOpen (P : Params) (x : Option Cmd) (e : ChannelState) : StaysOpen e (commitEntry P x e) := by
  cases x with
  | none => exact ⟨rfl, id⟩
  | some v => exact ⟨rfl, fun _ => rfl⟩

/-- Only the fifth send of a repeat-limited command closes the channel, and it flips the toggle (R135). -/
theorem advanceEntry_closes (P : Params) (e : ChannelState) (h : ¬ StaysOpen e (advanceEntry P e)) :
    e.armed = true ∧ isContinuous P e.cmd = false ∧ e.sends.toNat = 4 ∧ (advanceEntry P e).toggle = !e.toggle := by
  rcases advanceEntry_cases P e with ⟨heq, -⟩ | ⟨harmed, hlimited, hsends, heq⟩ | ⟨-, -, -, heq⟩
  · exact absurd (by rw [heq]; exact ⟨rfl, id⟩) h
  · exact ⟨harmed, hlimited, hsends, by rw [heq]⟩
  · exact absurd (by rw [heq]; exact ⟨rfl, id⟩) h

/-- The sequencer closes a channel only at the boundary of its own slot, by the fifth send (R23, R24, R83). -/
theorem tick_closes (P : Params) (start : Bool) (s : State) (c : ChannelId)
    (h : ¬ StaysOpen (entry s c) (entry (tick P start s) c)) :
    s.phase = .slot ∧ s.ch = c ∧ 15999 ≤ s.t.toNat ∧ (entry s c).armed = true ∧
      isContinuous P (entry s c).cmd = false ∧ (entry s c).sends.toNat = 4 ∧
      (entry (tick P start s) c).toggle = !(entry s c).toggle := by
  rcases tick_entry P start s c with ⟨x, hx⟩ | ⟨hp, hc, ht, x, hx⟩
  · exact absurd (hx ▸ commitEntry_staysOpen P x _) h
  · have hcommit := commitEntry_staysOpen P x (advanceEntry P (entry s c))
    rw [← hx] at hcommit
    obtain ⟨harmed, hlimited, hsends, htoggle⟩ := advanceEntry_closes P (entry s c) fun ha => h (ha.trans hcommit)
    exact ⟨hp, hc, ht, harmed, hlimited, hsends, hcommit.1.trans htoggle⟩

/-- An intake closes no channel, and in a round it changes neither the position, the time nor an entry (R159, R165). -/
theorem takeCommand_keeps (p : Pins) (s s' : State) (c : ChannelId) (h : takeCommand p s = .next s') :
    StaysOpen (entry s c) (entry s' c) ∧
    (s'.phase ≠ .idle → s'.phase = s.phase ∧ s'.ch = s.ch ∧ s'.t = s.t ∧ entry s' c = entry s c) := by
  rcases takeCommand_next p s s' h with ⟨-, rfl⟩ | ⟨-, d, v, rfl⟩
  · exact ⟨⟨rfl, id⟩, fun _ => ⟨rfl, rfl, rfl, rfl⟩⟩
  · obtain ⟨⟨x, hx⟩, hbusy⟩ := intake_entry Config.params d c v s
    refine ⟨hx ▸ commitEntry_staysOpen _ x _, fun hp => ?_⟩
    rw [intake_phase] at hp
    refine ⟨intake_phase _ d v s, ?_, ?_, hbusy hp⟩ <;> rw [intake_busy _ d v s hp] <;> rfl

/-- Settles O20: the intake closes no channel, so the sequencer's action does, and in a round the intake has left what
that action reads. -/
theorem onlyTheFifthSendClosesAChannel : Obligations.OnlyTheFifthSendClosesAChannel := by
  intro s t c hrst hstep hclose
  rcases step_next s t hstep with ⟨hr, -⟩ | ⟨-, s', htake, rfl⟩
  · exact absurd hr (by simp [hrst])
  obtain ⟨hopen, hkeep⟩ := takeCommand_keeps _ _ s' c htake
  have hclosed : ¬ StaysOpen (entry s c) (entry (tick Config.params (nextPins s).roundStart s') c) := by
    rintro ⟨htoggle, harmed⟩
    rcases hclose with hne | ⟨ha, hidle⟩
    · exact hne htoggle
    · simp [harmed ha] at hidle
  have hseq := tick_closes _ _ s' c fun h => hclosed (hopen.trans h)
  obtain ⟨hp, hch, ht, he⟩ := hkeep (by simp [hseq.1])
  rwa [hp, hch, ht, he] at hseq

/-! ### The record is not read -/

/-- A command operation that completes takes in the same command from every state. -/
theorem issue_uniform (P : Params) (c : Nat) (v : Option Cmd) (s t : State) (h : issue P c v s = .next t) :
    ∃ d w, ∀ u, issue P c v u = .next (intake P d w u) := by
  rcases issue_cases P c v s with ⟨d, w, hd, hw, -⟩ | ⟨-, hr⟩ | ⟨-, hr⟩
  · exact ⟨d, w, fun u => by simp [issue, hd, hw]⟩
  · rw [hr] at h; cases h
  · rw [hr] at h; cases h

theorem exec_command_uniform (i : Instr) (hi : isCommand i = true) (s t : State) (h : exec i s = .next t) :
    ∃ c v, ∀ u, exec i u = .next (intake Config.params c v u) := by
  cases i <;> simp only [isCommand, Bool.false_eq_true] at hi <;> exact issue_uniform _ _ _ s t h

/-- An intake that completes does the same from every state: nothing, or the intake of one command. -/
theorem takeCommand_uniform (p : Pins) (s t : State) (h : takeCommand p s = .next t) :
    (∀ u, takeCommand p u = .next u) ∨ ∃ c v, ∀ u, takeCommand p u = .next (intake Config.params c v u) := by
  unfold takeCommand at h ⊢
  cases hv : p.cmdValid with
  | false => exact .inl fun _ => rfl
  | true =>
    simp only [hv, if_true] at h ⊢
    cases hd : decodeCommand p with
    | error r => rw [hd] at h; cases h
    | ok i =>
      rw [hd] at h
      exact .inr (exec_command_uniform i (decodeCommand_isCommand p i hd) s t h)

/-- The state with another record. -/
def setLine (line : List Run) (s : State) : State := { s with line := line }

@[simp] theorem setLine_phase (line : List Run) (s : State) : (setLine line s).phase = s.phase := rfl
@[simp] theorem setLine_ch (line : List Run) (s : State) : (setLine line s).ch = s.ch := rfl
@[simp] theorem setLine_t (line : List Run) (s : State) : (setLine line s).t = s.t := rfl
@[simp] theorem setLine_m (line : List Run) (s : State) : (setLine line s).m = s.m := rfl

theorem intake_setLine (P : Params) (c : ChannelId) (v : Cmd) (line : List Run) (s : State) :
    intake P c v (setLine line s) = setLine line (intake P c v s) := by
  unfold intake
  rw [setLine_phase]
  split <;> rfl

theorem roundEnd_setLine (P : Params) (line : List Run) (s : State) :
    roundEnd P (setLine line s) = setLine line (roundEnd P s) := by
  simp only [roundEnd, commitShadow_eq]
  rfl

theorem afterSlots_setLine (P : Params) (line : List Run) (s : State) :
    afterSlots P (setLine line s) = setLine line (afterSlots P s) := by
  unfold afterSlots
  split
  · rfl
  · exact roundEnd_setLine P line s

theorem slotBoundary_setLine (P : Params) (line : List Run) (s : State) :
    slotBoundary P (setLine line s) = setLine line (slotBoundary P s) := by
  unfold slotBoundary
  rw [setLine_ch]
  split
  · rfl
  · exact afterSlots_setLine P line (advance P s.ch s)

theorem slotEdge_setLine (P : Params) (line : List Run) (s : State) :
    slotEdge P (setLine line s) = setLine line (slotEdge P s) := by
  unfold slotEdge
  rw [setLine_t]
  split
  · rfl
  · exact slotBoundary_setLine P line s

theorem marginEdge_setLine (P : Params) (line : List Run) (s : State) :
    marginEdge P (setLine line s) = setLine line (marginEdge P s) := by
  unfold marginEdge
  rw [setLine_m]
  split
  · rfl
  · exact roundEnd_setLine P line s

/-- With another record the sequencer's action differs at most in the record. -/
theorem tick_setLine (P : Params) (start : Bool) (line : List Run) (s : State) :
    ∃ line', tick P start (setLine line s) = setLine line' (tick P start s) := by
  cases hp : s.phase with
  | idle =>
    rw [tick_idle P start s hp, tick_idle P start (setLine line s) hp]
    split
    · exact ⟨[], rfl⟩
    · exact ⟨line, rfl⟩
  | slot =>
    refine ⟨extendLine (irOut P s) 1 line, ?_⟩
    rw [tick_slot P start s hp, ← slotEdge_setLine]
    exact tick_slot P start (setLine line s) hp
  | margin =>
    refine ⟨extendLine (irOut P s) 1 line, ?_⟩
    rw [tick_margin P start s hp, ← marginEdge_setLine]
    exact tick_margin P start (setLine line s) hp

theorem takeCommand_setLine (p : Pins) (line : List Run) (s t : State) (h : takeCommand p s = .next t) :
    takeCommand p (setLine line s) = .next (setLine line t) := by
  rcases takeCommand_uniform p s t h with hnone | ⟨c, v, htake⟩
  · rw [hnone] at h ⊢
    cases h
    rfl
  · rw [htake] at h ⊢
    cases h
    rw [intake_setLine]

/-- Settles O52: reset clears the record; the intake and the sequencer carry another record along. -/
theorem theRecordIsNeverRead : Obligations.TheRecordIsNeverRead := by
  intro s t line hstep
  rcases step_next s t hstep with ⟨hrst, rfl⟩ | ⟨hrst, s', htake, rfl⟩
  · exact ⟨[], step_of_reset (setLine line s) hrst⟩
  · obtain ⟨line', htick⟩ := tick_setLine Config.params (nextPins s).roundStart line s'
    refine ⟨line', (step_of_takeCommand (setLine line s) _ hrst (takeCommand_setLine _ line _ s' htake)).trans ?_⟩
    exact congrArg Host.Outcome.next htick

/-! ### The invariant -/

/-- R40 (a) and R138 of one entry. -/
def CounterOk (e : ChannelState) : Prop := e.sends.toNat ≤ 4 ∧ (e.armed = false → e.sends = 0)

theorem commitEntry_counterOk (P : Params) (x : Option Cmd) (e : ChannelState) (h : CounterOk e) :
    CounterOk (commitEntry P x e) := by
  cases x with
  | none => exact h
  | some v =>
    refine ⟨?_, fun hidle => Bool.noConfusion hidle⟩
    simp only [commitEntry, writeEntry]
    split
    · decide
    · exact h.1

theorem advanceEntry_counterOk (P : Params) (e : ChannelState) (h : CounterOk e) : CounterOk (advanceEntry P e) := by
  rcases advanceEntry_cases P e with ⟨heq, -⟩ | ⟨-, -, -, heq⟩ | ⟨harmed, -, hne, heq⟩ <;> rw [heq]
  · exact h
  · exact ⟨Nat.zero_le _, fun _ => rfl⟩
  · have hle := h.1
    exact ⟨by simp only [BitVec.toNat_ofNat]; omega, fun hidle => by simp [harmed] at hidle⟩

/-- What the invariant says in every phase: the counters, and a record in its one form that lasts `n` tu. -/
structure Recorded (n : Nat) (s : State) : Prop where
  counters : ∀ c, CounterOk (entry s c)
  line_wf : lineWf s.line = true
  line_length : lineLength s.line = n

theorem Inv.recorded {P : Params} {s : State} (h : Inv P s) : Recorded (lineLength s.line) s :=
  ⟨fun c => ⟨h.sends_le c, h.unarmed_sends c⟩, h.line_wf, rfl⟩

/-- One more period is on the record (R168). -/
theorem Recorded.extend {n : Nat} {s : State} (h : Recorded n s) (b : Bool) :
    Recorded (n + 1) { s with line := extendLine b 1 s.line } :=
  ⟨h.counters, extendLine_wf b 1 s.line h.line_wf, by rw [extendLine_length, h.line_length]⟩

theorem Recorded.advance {n : Nat} {s : State} (h : Recorded n s) (P : Params) (c : ChannelId) :
    Recorded n (advance P c s) := by
  refine ⟨fun d => ?_, h.line_wf, h.line_length⟩
  rw [advance_get]
  split
  · exact advanceEntry_counterOk P _ (h.counters c)
  · exact h.counters d

/-- A state at rest meets the invariant when its position is that of reset and its record lasts no round or one. -/
theorem Recorded.idle_inv {P : Params} {n : Nat} {s : State} (h : Recorded n s) (hphase : s.phase = .idle)
    (hrest : s.ch = 0 ∧ s.t = 0 ∧ s.m = 0 ∧ s.frame = none ∧ ∀ c, held s c = none) (hn : n = 0 ∨ n = P.roundTu) :
    Inv P s where
  sends_le c := (h.counters c).1
  unarmed_sends c := (h.counters c).2
  idle _ := hrest
  slot := by simp [hphase]
  margin := by simp [hphase]
  line_wf := h.line_wf
  line_idle _ := by rwa [h.line_length]
  line_slot := by simp [hphase]
  line_margin := by simp [hphase]

/-- A state in a slot meets the invariant when its record, its time and its frame agree with the channel being sent. -/
theorem Recorded.slot_inv {P : Params} {s : State} (h : Recorded (16000 * s.ch.val + s.t.toNat) s)
    (hphase : s.phase = .slot) (ht : s.t.toNat ≤ 15999) (hm : s.m = 0) (hframe : s.frame = frameOf P s.ch s) :
    Inv P s where
  sends_le c := (h.counters c).1
  unarmed_sends c := (h.counters c).2
  idle := by simp [hphase]
  slot _ := ⟨ht, hm, hframe⟩
  margin := by simp [hphase]
  line_wf := h.line_wf
  line_idle := by simp [hphase]
  line_slot _ := h.line_length
  line_margin := by simp [hphase]

/-- A state in the margin meets the invariant when its record lasts the four slots and the margin so far. -/
theorem Recorded.margin_inv {P : Params} {s : State} (h : Recorded (64000 + s.m) s) (hphase : s.phase = .margin)
    (hm : s.m < P.roundMarginTu) (hframe : s.frame = none) (hch : s.ch = 0) (ht : s.t = 0) : Inv P s where
  sends_le c := (h.counters c).1
  unarmed_sends c := (h.counters c).2
  idle := by simp [hphase]
  slot := by simp [hphase]
  margin _ := ⟨Nat.zero_lt_of_lt hm, hm, hframe, hch, ht⟩
  line_wf := h.line_wf
  line_idle := by simp [hphase]
  line_slot := by simp [hphase]
  line_margin _ := h.line_length

theorem Recorded.roundEnd_inv {P : Params} {s : State} (h : Recorded P.roundTu s) : Inv P (roundEnd P s) := by
  obtain ⟨hentry, hheld, hphase, hch, ht, hm, hframe, -, hline⟩ := roundEnd_spec P s
  have hrec : Recorded P.roundTu (roundEnd P s) :=
    { counters := fun c => by rw [hentry]; exact commitEntry_counterOk P _ _ (h.counters c)
      line_wf := by rw [hline]; exact h.line_wf
      line_length := by rw [hline]; exact h.line_length }
  exact hrec.idle_inv hphase ⟨hch, ht, hm, hframe, hheld⟩ (.inr rfl)

theorem Recorded.beginSlot_inv {P : Params} {s : State} {c : ChannelId} (h : Recorded (16000 * c.val) s) :
    Inv P (beginSlot P c s) :=
  Recorded.slot_inv (s := beginSlot P c s) ⟨h.counters, h.line_wf, h.line_length⟩ rfl (Nat.zero_le _) rfl rfl

theorem Recorded.afterSlots_inv {P : Params} {s : State} (h : Recorded 64000 s) : Inv P (afterSlots P s) := by
  unfold afterSlots
  split
  · next hmargin => exact Recorded.margin_inv ⟨h.counters, h.line_wf, h.line_length⟩ rfl hmargin rfl rfl rfl
  · next hmargin =>
    have hround : P.roundTu = 64000 := by rw [Params.roundTu_eq]; omega
    exact Recorded.roundEnd_inv (hround ▸ h)

theorem Recorded.slotBoundary_inv {P : Params} {s : State} (h : Recorded (16000 * (s.ch.val + 1)) s) :
    Inv P (slotBoundary P s) := by
  unfold slotBoundary
  split
  · next hch =>
    have hnext : (s.ch + 1).val = s.ch.val + 1 := by omega
    exact Recorded.beginSlot_inv (hnext ▸ h.advance P s.ch)
  · next hch =>
    have hlast : 16000 * (s.ch.val + 1) = 64000 := by omega
    exact Recorded.afterSlots_inv (hlast ▸ h.advance P s.ch)

/-- A period of a slot passes, or ends the slot (R161, R162). -/
theorem Inv.tick_slot {P : Params} {s : State} (h : Inv P s) (start : Bool) (hphase : s.phase = .slot) :
    Inv P (tick P start s) := by
  obtain ⟨ht, hm, hframe⟩ := h.slot hphase
  have hrec := h.recorded.extend (irOut P s)
  rw [h.line_slot hphase] at hrec
  rw [Machine.tick_slot P start s hphase, slotEdge]
  split
  · next hlt =>
    replace hlt : s.t.toNat < 15999 := hlt
    have hnext : (s.t + 1).toNat = s.t.toNat + 1 := by bv_omega
    refine Recorded.slot_inv ⟨hrec.counters, hrec.line_wf, ?_⟩ hphase ?_ hm hframe
    · rw [hrec.line_length, hnext, Nat.add_assoc]
    · rw [hnext]; omega
  · next hge =>
    replace hge : ¬ s.t.toNat < 15999 := hge
    have hend : 16000 * s.ch.val + s.t.toNat + 1 = 16000 * (s.ch.val + 1) := by omega
    exact Recorded.slotBoundary_inv (hend ▸ hrec)

/-- A period of the margin passes, or ends the round (R163). -/
theorem Inv.tick_margin {P : Params} {s : State} (h : Inv P s) (start : Bool) (hphase : s.phase = .margin) :
    Inv P (tick P start s) := by
  obtain ⟨-, hm, hframe, hch, ht⟩ := h.margin hphase
  have hrec := h.recorded.extend (irOut P s)
  rw [h.line_margin hphase] at hrec
  rw [Machine.tick_margin P start s hphase, marginEdge]
  split
  · next hlt =>
    have hnext : s.m + 1 < P.roundMarginTu := Nat.add_lt_of_lt_sub hlt
    exact Recorded.margin_inv ⟨hrec.counters, hrec.line_wf, hrec.line_length⟩ hphase hnext hframe hch ht
  · next hge =>
    replace hge : ¬ s.m < P.roundMarginTu - 1 := hge
    have hend : 64000 + s.m + 1 = P.roundTu := by rw [Params.roundTu_eq]; omega
    exact Recorded.roundEnd_inv (hend ▸ hrec)

/-- The sequencer's action keeps the invariant, in every configuration. -/
theorem Inv.tick {P : Params} {s : State} (h : Inv P s) (start : Bool) : Inv P (tick P start s) := by
  cases hphase : s.phase with
  | idle =>
    rw [tick_idle P start s hphase]
    split
    · exact Recorded.beginSlot_inv ⟨h.recorded.counters, rfl, rfl⟩
    · exact h
  | slot => exact h.tick_slot start hphase
  | margin => exact h.tick_margin start hphase

/-- An intake keeps the invariant: at rest it arms an entry, in a round it holds a write, which the invariant allows
outside rest only. -/
theorem Inv.intake {P : Params} {s : State} (h : Inv P s) (c : ChannelId) (v : Cmd) : Inv P (intake P c v s) := by
  by_cases hphase : s.phase = .idle
  · have hcounters : ∀ d, CounterOk (entry (Machine.intake P c v s) d) := fun d => by
      obtain ⟨⟨x, hx⟩, -⟩ := intake_entry P c d v s
      rw [hx]
      exact commitEntry_counterOk P x _ (h.recorded.counters d)
    rw [intake_idle P c v s hphase] at hcounters ⊢
    exact Recorded.idle_inv ⟨hcounters, h.line_wf, rfl⟩ hphase (h.idle hphase) (h.line_idle hphase)
  · rw [intake_busy P c v s hphase]
    exact ⟨h.sends_le, h.unarmed_sends, fun hidle => absurd hidle hphase, h.slot, h.margin, h.line_wf, h.line_idle,
      h.line_slot, h.line_margin⟩

/-- The coming inputs are no part of the invariant (log 2). -/
theorem Inv.setInputs {P : Params} {s : State} (h : Inv P s) (inputs : List Pins) :
    Inv P { s with inputs := inputs } :=
  ⟨h.sends_le, h.unarmed_sends, h.idle, h.slot, h.margin, h.line_wf, h.line_idle, h.line_slot, h.line_margin⟩

theorem inv_reset (P : Params) : Inv P State.reset :=
  have hcounters : ∀ c, CounterOk (entry State.reset c) := fun c => by
    rw [entry_reset]
    exact ⟨Nat.zero_le _, fun _ => rfl⟩
  Recorded.idle_inv ⟨hcounters, rfl, rfl⟩ rfl ⟨rfl, rfl, rfl, rfl, held_reset⟩ (.inl rfl)

/-- Settles O43, which holds in every configuration. -/
theorem resetMeetsTheInvariant : Obligations.ResetMeetsTheInvariant := inv_reset Config.params

/-- Settles O42: reset meets the invariant, and the intake and the sequencer's action each keep it. -/
theorem stepKeepsTheInvariant : Obligations.StepKeepsTheInvariant := by
  intro s t h hstep
  rcases step_next s t hstep with ⟨-, rfl⟩ | ⟨-, s', htake, rfl⟩
  · exact (inv_reset Config.params).setInputs _
  · have hdrop : Inv Config.params (dropPins s) := h.setInputs _
    rcases takeCommand_next _ _ s' htake with ⟨-, rfl⟩ | ⟨-, c, v, rfl⟩
    · exact hdrop.tick _
    · exact (hdrop.intake c v).tick _

end Sys2Proof.Machine

/-! PROOFS. Command writes (R46, R52 to R58, R81, R131, R165): which operations complete, how two writes combine, and
that in a round they leave what is sent alone (R61, R164). -/

namespace Sys2Proof.Machine

/-! ### Which operations complete -/

theorem channelOf_isSome (c : Nat) : (channelOf c).isSome = channelInRange c := by
  unfold channelOf
  split
  · next h => exact (decide_eq_true h).symm
  · next h => exact (decide_eq_false h).symm

theorem nibbleOf_isSome (a : Nat) : (nibbleOf a).isSome = nibbleInRange a := by
  unfold nibbleOf
  cases nibbleInRange a <;> rfl

theorem directOf_isSome (a : Nat) : (directOf a).isSome = directInRange a := by
  unfold directOf
  cases directInRange a <;> rfl

theorem selectOf_isSome (sel : Nat) : (selectOf sel).isSome = selectInRange sel := by
  unfold selectOf
  cases selectInRange sel <;> rfl

theorem extendedCmd_isSome (d : Nat) : (extendedCmd d).isSome = nibbleInRange d := by
  rw [extendedCmd, Option.isSome_map, nibbleOf_isSome]

theorem comboDirectCmd_isSome (a : Nat) (ia : Bool) (b : Nat) (ib : Bool) :
    (comboDirectCmd a ia b ib).isSome = (directInRange a && directInRange b) := by
  rw [← directOf_isSome, ← directOf_isSome, comboDirectCmd]
  cases directOf a <;> cases directOf b <;> rfl

theorem comboPwmCmd_isSome (a : Nat) (ia : Bool) (b : Nat) (ib : Bool) :
    (comboPwmCmd a ia b ib).isSome = (nibbleInRange a && nibbleInRange b) := by
  rw [← nibbleOf_isSome, ← nibbleOf_isSome, comboPwmCmd]
  cases nibbleOf a <;> cases nibbleOf b <;> rfl

theorem singlePwmCmd_isSome (sel p : Nat) (inv : Bool) :
    (singlePwmCmd sel p inv).isSome = (selectInRange sel && nibbleInRange p) := by
  rw [← selectOf_isSome, ← nibbleOf_isSome, singlePwmCmd]
  cases selectOf sel <;> cases nibbleOf p <;> rfl

theorem singleCstidCmd_isSome (sel d : Nat) :
    (singleCstidCmd sel d).isSome = (selectInRange sel && nibbleInRange d) := by
  rw [← selectOf_isSome, ← nibbleOf_isSome, singleCstidCmd]
  cases selectOf sel <;> cases nibbleOf d <;> rfl

/-- A command operation issues what its operands name, and is well formed exactly when they name a channel and a
command. -/
theorem exec_command_issue (i : Instr) (h : isCommand i = true) :
    ∃ c v, (∀ s, exec i s = issue Config.params c v s) ∧ i.WellFormed = ((channelOf c).isSome && v.isSome) := by
  cases i <;> simp only [isCommand, Bool.false_eq_true] at h <;> refine ⟨_, _, fun _ => rfl, ?_⟩
  case setExtended c d => rw [channelOf_isSome, extendedCmd_isSome]; rfl
  case setComboDirect c a ia b ib => rw [channelOf_isSome, comboDirectCmd_isSome, ← Bool.and_assoc]; rfl
  case setComboPwm c a ia b ib => rw [channelOf_isSome, comboPwmCmd_isSome, ← Bool.and_assoc]; rfl
  case setSinglePwm c sel p inv => rw [channelOf_isSome, singlePwmCmd_isSome, ← Bool.and_assoc]; rfl
  case setSingleCstid c sel d => rw [channelOf_isSome, singleCstidCmd_isSome, ← Bool.and_assoc]; rfl

/-- A command operation with an operand out of range is refused by name (U1, U2). -/
theorem exec_command_refused (i : Instr) (h : isCommand i = true) (hw : i.WellFormed = false) (s : State) :
    exec i s = .refused .channelOutOfRange ∨ exec i s = .refused .codeOutOfRange := by
  obtain ⟨c, v, hexec, hwf⟩ := exec_command_issue i h
  rw [hexec]
  rcases issue_cases Config.params c v s with ⟨d, w, hd, hv, -⟩ | ⟨-, hr⟩ | ⟨-, hr⟩
  · rw [hwf, hd, hv] at hw
    exact Bool.noConfusion hw
  · exact .inl hr
  · exact .inr hr

/-- Every operation but the five commands is well formed and completes, in every phase (R158, R175). -/
theorem exec_notCommand (i : Instr) (h : isCommand i = false) (s : State) :
    i.WellFormed = true ∧ ∃ t, exec i s = .next t := by
  cases i <;> simp only [isCommand, Bool.true_eq_false] at h
  case transmitRound =>
    refine ⟨rfl, ?_⟩
    simp only [exec, execTransmitRound]
    split <;> exact ⟨_, rfl⟩
  all_goals exact ⟨rfl, _, rfl⟩

/-- Settles O13: a command operation takes in its command or is refused by name, and no other operation is refused. -/
theorem operationsCompleteExactlyInRange : Obligations.OperationsCompleteExactlyInRange := by
  intro i s
  cases hi : isCommand i with
  | false =>
    obtain ⟨hw, hnext⟩ := exec_notCommand i hi s
    exact ⟨fun _ => hnext, fun hbad => Bool.noConfusion (hw.symm.trans hbad)⟩
  | true =>
    refine ⟨fun hw => ?_, fun hw => ⟨rfl, exec_command_refused i hi hw s⟩⟩
    obtain ⟨c, v, -, hexec⟩ := exec_command i hi hw
    exact ⟨_, hexec s⟩

/-! ### Two writes -/

theorem setChan_comm {c d : ChannelId} (h : c ≠ d) (e f : ChannelState) (s : State) :
    setChan c e (setChan d f s) = setChan d f (setChan c e s) := by
  simp only [setChan, Vector.set_comm f e (Fin.val_ne_of_ne h.symm)]

theorem setChan_setChan (c : ChannelId) (e f : ChannelState) (s : State) :
    setChan c e (setChan c f s) = setChan c e s := by
  simp only [setChan, Vector.set_set]

theorem setShadow_comm {c d : ChannelId} (h : c ≠ d) (x y : Option Cmd) (s : State) :
    setShadow c x (setShadow d y s) = setShadow d y (setShadow c x s) := by
  simp only [setShadow, Vector.set_comm y x (Fin.val_ne_of_ne h.symm)]

theorem setShadow_setShadow (c : ChannelId) (x y : Option Cmd) (s : State) :
    setShadow c x (setShadow c y s) = setShadow c x s := by
  simp only [setShadow, Vector.set_set]

theorem commandWrite_comm (P : Params) {c d : ChannelId} (h : c ≠ d) (v w : Cmd) (s : State) :
    commandWrite P c v (commandWrite P d w s) = commandWrite P d w (commandWrite P c v s) := by
  simp only [commandWrite, setChan_get_other _ _ _ _ h, setChan_get_other _ _ _ _ h.symm, setChan_comm h]

/-- The entry keeps nothing of the command it held (R131): a second write makes of it what it alone would. -/
theorem writeEntry_writeEntry (P : Params) (v w : Cmd) (e : ChannelState) :
    writeEntry P w (writeEntry P v e) = writeEntry P w e := by
  cases hreset : P.setCmdResetsRepeat <;> simp [writeEntry, hreset]

theorem commandWrite_commandWrite (P : Params) (c : ChannelId) (v w : Cmd) (s : State) :
    commandWrite P c w (commandWrite P c v s) = commandWrite P c w s := by
  simp only [commandWrite, setChan_get_self, writeEntry_writeEntry, setChan_setChan]

/-- Intakes for different channels commute, at rest and in a round (R57). -/
theorem intake_comm (P : Params) {c d : ChannelId} (h : c ≠ d) (v w : Cmd) (s : State) :
    intake P c v (intake P d w s) = intake P d w (intake P c v s) := by
  by_cases hp : s.phase = .idle
  · rw [intake_idle P d w s hp, intake_idle P c v s hp, intake_idle P c v (commandWrite P d w s) hp,
      intake_idle P d w (commandWrite P c v s) hp, commandWrite_comm P h]
  · rw [intake_busy P d w s hp, intake_busy P c v s hp, intake_busy P c v (setShadow d _ s) hp,
      intake_busy P d w (setShadow c _ s) hp, setShadow_comm h]

/-- Of two intakes for one channel the later alone counts, at rest and in a round (R56). -/
theorem intake_intake (P : Params) (c : ChannelId) (v w : Cmd) (s : State) :
    intake P c w (intake P c v s) = intake P c w s := by
  by_cases hp : s.phase = .idle
  · rw [intake_idle P c v s hp, intake_idle P c w s hp, intake_idle P c w (commandWrite P c v s) hp,
      commandWrite_commandWrite]
  · rw [intake_busy P c v s hp, intake_busy P c w s hp, intake_busy P c w (setShadow c _ s) hp, setShadow_setShadow]

theorem execAll_cons_of_next (i : Instr) (is : List Instr) (s t : State) (h : exec i s = .next t) :
    execAll (i :: is) s = execAll is t := by
  rw [execAll, h]

/-- Settles O14: both orders are intakes for two channels. -/
theorem writesToDifferentChannelsCommute : Obligations.WritesToDifferentChannelsCommute := by
  intro i j s hi hj hiw hjw hne
  obtain ⟨c, v, hc, hexeci⟩ := exec_command i hi hiw
  obtain ⟨d, w, hd, hexecj⟩ := exec_command j hj hjw
  have hcd : c ≠ d := by
    rintro rfl
    exact hne (hc.trans hd.symm)
  refine ⟨intake Config.params d w (intake Config.params c v s), ?_, ?_⟩
  · rw [execAll_cons_of_next i _ _ _ (hexeci s), execAll_cons_of_next j _ _ _ (hexecj _), execAll]
  · rw [execAll_cons_of_next j _ _ _ (hexecj s), execAll_cons_of_next i _ _ _ (hexeci _), execAll, intake_comm _ hcd]

/-- Settles O15: both operations are intakes for one channel. -/
theorem laterWriteOverwrites : Obligations.LaterWriteOverwrites := by
  intro i j s hi hj hiw hjw heq
  obtain ⟨c, v, hc, hexeci⟩ := exec_command i hi hiw
  obtain ⟨d, w, hd, hexecj⟩ := exec_command j hj hjw
  have hcd : c = d := Fin.ext (Option.some.inj (hc.symm.trans (heq.trans hd)))
  subst hcd
  refine ⟨_, hexecj s, ?_⟩
  rw [execAll_cons_of_next i _ _ _ (hexeci s), execAll_cons_of_next j _ _ _ (hexecj _), execAll, intake_intake]

/-! ### What is sent during a round -/

/-- In a round the sequencer's action after an intake is the intake after that action, whatever `round_start`
(R164, R165). -/
theorem tick_intake (P : Params) (start : Bool) (c : ChannelId) (v : Cmd) (s : State) (h : s.phase ≠ .idle) :
    tick P start (intake P c v s) = intake P c v (tick P false s) := by
  rw [intake_busy P c v s h, tick_setShadow P start c v s h, tick_busy P start s h]

/-- What of a state is sent or decides what is sent: the position, the frame, the waveform so far and the output. -/
def sentView (P : Params) (s : State) : Phase × ChannelId × SlotTime × Nat × Option Frame × List Run × Bool :=
  (s.phase, s.ch, s.t, s.m, s.frame, s.line, irOut P s)

theorem intake_sentView (P : Params) (c : ChannelId) (v : Cmd) (s : State) :
    sentView P (intake P c v s) = sentView P s := by
  unfold intake
  split <;> rfl

/-- A step in a round sends what the sequencer alone would send, whatever the inputs (R61, R164). -/
theorem step_busy_sentView (s t : State) (h : s.phase ≠ .idle) (hrst : (nextPins s).rst = false)
    (hstep : step s = .next t) :
    sentView Config.params t = sentView Config.params (tick Config.params false (dropPins s)) := by
  rcases step_next s t hstep with ⟨hr, -⟩ | ⟨-, s', htake, rfl⟩
  · exact Bool.noConfusion (hr.symm.trans hrst)
  · rcases takeCommand_next _ _ s' htake with ⟨-, rfl⟩ | ⟨-, c, v, rfl⟩
    · rw [tick_busy _ _ (dropPins s) h]
    · rw [tick_intake _ _ c v (dropPins s) h, intake_sentView]

/-- Settles O53: each of the two steps sends what the sequencer alone would. -/
theorem callerCannotDisturbARound : Obligations.CallerCannotDisturbARound := by
  intro s t t' p p' rest h hrst hrst' hstep hstep'
  have hview : sentView Config.params t = sentView Config.params t' :=
    (step_busy_sentView { s with inputs := p :: rest } t h hrst hstep).trans
      (step_busy_sentView { s with inputs := p' :: rest } t' h hrst' hstep').symm
  simpa only [sentView, Prod.mk.injEq] using hview

end Sys2Proof.Machine

/-! PROOFS. The clock edges of a slot and of a round (R160 to R163, R168, R169): the closed form of a slot (R121) is what
its symbols emit, the sequencer emits it one tu at a time, and its edges from the start of a round leave the state of
the operation. -/

namespace Sys2Proof

theorem Params.markTu_le (P : Params) : P.markTu ≤ 286 := by
  have hcycles : P.markCycles ≤ 11 := P.markCyclesLess1.isLt
  rw [Params.markTu_eq]
  omega

end Sys2Proof

namespace Sys2Proof.Machine

/-! ### How long the symbols of a frame last -/

theorem symTu_bitSymbol (P : Params) (b : Bool) : symTu P (bitSymbol b) = P.markTu + 260 + 286 * b.toNat := by
  cases b with
  | false => simp [symTu, bitSymbol, pauseCycles, Config.pauseZero, Config.cycleTu]
  | true => simp [symTu, bitSymbol, pauseCycles, Config.pauseOne, Config.cycleTu]

theorem sum_symTu_bits (P : Params) (bs : List Bool) :
    ((bs.map bitSymbol).map (symTu P)).sum = bs.length * (P.markTu + 260) + 286 * bs.count true := by
  induction bs with
  | nil => simp
  | cons b bs ih =>
    have hcount : (b :: bs).count true = bs.count true + b.toNat := by cases b <;> simp
    rw [List.map_cons, List.map_cons, List.sum_cons, ih, symTu_bitSymbol, hcount, List.length_cons,
      Nat.add_one_mul bs.length]
    omega

theorem payloadBits_length (F : Frame) : (payloadBits F).length = 16 := by simp [payloadBits, Config.frameBits]

/-- The length of a message (R123). -/
theorem symOffset_end (P : Params) (F : Frame) : symOffset P F 18 = 18 * P.markTu + 6188 + 286 * onesIn F := by
  have hbits := sum_symTu_bits P (payloadBits F)
  rw [payloadBits_length, ← onesIn] at hbits
  have hends : symTu P .startStop = P.markTu + 1014 := rfl
  rw [symOffset, List.take_of_length_le (symbols_length F).le, symbols]
  simp only [List.map_cons, List.map_append, List.map_nil, List.sum_cons, List.sum_append, List.sum_nil, hbits, hends]
  omega

theorem onesIn_le (F : Frame) : onesIn F ≤ 16 := payloadBits_length F ▸ List.count_le_length

/-- A message fits into its slot (R122). -/
theorem symOffset_end_le (P : Params) (F : Frame) : symOffset P F 18 ≤ 16000 := by
  have hmark := P.markTu_le
  have hones := onesIn_le F
  rw [symOffset_end]
  omega

/-! ### The closed form of a slot -/

/-- The closed form of R121 for any list of symbols: 1 in the high half of a carrier cycle of the mark of one of
them. -/
def symbolsWave (P : Params) (ys : List Symbol) (τ : Nat) : Bool :=
  (List.range ys.length).any fun j =>
    decide (((ys.take j).map (symTu P)).sum ≤ τ ∧ τ < ((ys.take j).map (symTu P)).sum + P.markTu ∧
      (τ - ((ys.take j).map (symTu P)).sum) % 26 < 13)

theorem wave_eq (P : Params) (F : Frame) (τ : Nat) : wave P F τ = symbolsWave P (symbols F) τ := by
  rw [symbolsWave, symbols_length]
  rfl

/-- The first symbol shows its mark, the others what they show alone, later by the length of the first. -/
theorem symbolsWave_cons (P : Params) (y : Symbol) (ys : List Symbol) (τ : Nat) :
    symbolsWave P (y :: ys) τ =
      ((decide (τ < P.markTu) && decide (τ % 26 < 13)) ||
        (decide (symTu P y ≤ τ) && symbolsWave P ys (τ - symTu P y))) := by
  have hrest : ∀ n : Nat, (symTu P y + n ≤ τ ∧ τ < symTu P y + n + P.markTu ∧ (τ - (symTu P y + n)) % 26 < 13) ↔
      symTu P y ≤ τ ∧ n ≤ τ - symTu P y ∧ τ - symTu P y < n + P.markTu ∧ (τ - symTu P y - n) % 26 < 13 := by
    intro n
    rw [Nat.sub_sub]
    omega
  simp only [symbolsWave, List.length_cons, List.range_succ_eq_map, List.any_cons, List.any_map]
  congr 1
  · simp
  · rw [Bool.eq_iff_iff]
    simp only [List.any_eq_true, Bool.and_eq_true, decide_eq_true_eq, Function.comp_apply, List.take_succ_cons,
      List.map_cons, List.sum_cons, hrest]
    exact ⟨fun ⟨j, hj, hy, h⟩ => ⟨hy, j, hj, h⟩, fun ⟨hy, j, hj, h⟩ => ⟨j, hj, hy, h⟩⟩

/-- What symbols emit one after another is their closed form. -/
theorem flatMap_symbolLevels_getD (P : Params) (ys : List Symbol) (τ : Nat) :
    (ys.flatMap (symbolLevels P)).getD τ false = symbolsWave P ys τ := by
  induction ys generalizing τ with
  | nil => rfl
  | cons y ys ih =>
    have hmark : P.markTu ≤ symTu P y := Nat.le_add_right _ _
    rw [List.flatMap_cons, symbolsWave_cons]
    by_cases h : τ < symTu P y
    · rw [List.getD_append _ _ _ _ (by rwa [symbolLevels_length]), symbolLevels_getD,
        decide_eq_false (Nat.not_le.mpr h)]
      simp
    · have hle : symTu P y ≤ τ := Nat.le_of_not_lt h
      rw [List.getD_append_right _ _ _ _ (by rwa [symbolLevels_length]), symbolLevels_length, ih, decide_eq_true hle,
        decide_eq_false (Nat.not_lt.mpr (hmark.trans hle))]
      simp

theorem slotLevels_getD (P : Params) (fr : Option Frame) (τ : Nat) :
    (slotLevels P fr).getD τ false = slotLevel P fr τ := by
  cases fr with
  | none => exact getD_append_lows [] Config.msgTu τ
  | some F => rw [slotLevels, getD_append_lows, flatMap_symbolLevels_getD, ← wave_eq, slotLevel]

theorem slotLevels_length (P : Params) (fr : Option Frame) : (slotLevels P fr).length = 16000 := by
  cases fr with
  | none => exact List.length_replicate
  | some F =>
    rw [slotLevels, List.length_append, List.length_replicate, flatMap_symbolLevels_length]
    exact Nat.add_sub_of_le (symOffset_end_le P F)

/-- A slot emits its closed form, one tu after another (R121). -/
theorem slotLevels_eq (P : Params) (fr : Option Frame) :
    slotLevels P fr = (List.range' 0 16000).map (slotLevel P fr) := by
  refine List.ext_getElem (by rw [slotLevels_length, List.length_map, List.length_range']) fun τ h _ => ?_
  rw [← List.getD_eq_getElem _ false h, slotLevels_getD]
  simp

/-! ### The edges of a slot -/

theorem irOut_slot (P : Params) (s : State) (h : s.phase = .slot) : irOut P s = slotLevel P s.frame s.t.toNat := by
  simp [irOut, h]

/-- An edge inside a slot emits one tu of the slot's waveform (R161). -/
theorem tick_inside_slot (P : Params) (start : Bool) (s : State) (h : s.phase = .slot) (ht : s.t.toNat < 15999) :
    tick P start s = emit (slotLevel P s.frame s.t.toNat) 1 s := by
  rw [tick_slot P start s h, irOut_slot P s h, slotEdge]
  exact if_pos ht

/-- The last edge of a slot emits its last tu and is the slot boundary (R162). -/
theorem tick_last_of_slot (P : Params) (start : Bool) (s : State) (h : s.phase = .slot) (ht : 15999 ≤ s.t.toNat) :
    tick P start s = slotBoundary P (emit (slotLevel P s.frame s.t.toNat) 1 s) := by
  rw [tick_slot P start s h, irOut_slot P s h, slotEdge]
  exact (if_neg (Nat.not_lt.mpr ht)).trans (slotBoundary_t P _ _).symm

/-- Edges inside a slot emit as many tu of its waveform. -/
theorem iterate_tick_slot (P : Params) (start : Bool) (k : Nat) (s : State) (h : s.phase = .slot)
    (ht : s.t.toNat + k ≤ 15999) :
    (tick P start)^[k] s = emitLevels ((List.range' s.t.toNat k).map (slotLevel P s.frame)) s := by
  induction k generalizing s with
  | zero => rfl
  | succ k ih =>
    have hnext : (emit (slotLevel P s.frame s.t.toNat) 1 s).t.toNat = s.t.toNat + 1 := by
      rw [emit_t]
      bv_omega
    rw [Function.iterate_succ_apply, tick_inside_slot P start s h (by omega), ih (emit _ 1 s) h (by omega), hnext,
      List.range'_succ, List.map_cons, emitLevels_cons, emit_frame]

/-- From any time of a slot, its edges emit the rest of its waveform, and the last of them is the slot boundary. -/
theorem iterate_tick_slot_end (P : Params) (start : Bool) (k : Nat) (s : State) (h : s.phase = .slot)
    (hk : 0 < k) (ht : s.t.toNat + k = 16000) :
    (tick P start)^[k] s = slotBoundary P (emitLevels ((List.range' s.t.toNat k).map (slotLevel P s.frame)) s) := by
  obtain ⟨k, rfl⟩ := Nat.exists_eq_add_one.mpr hk
  obtain ⟨hstate, -, -, -⟩ := emitLevels_spec ((List.range' s.t.toNat k).map (slotLevel P s.frame)) s
  have hlast : (tick P start)^[k] s = emitLevels ((List.range' s.t.toNat k).map (slotLevel P s.frame)) s :=
    iterate_tick_slot P start k s h (by omega)
  rw [List.range'_1_concat, List.map_append, emitLevels_append, ← hlast, Function.iterate_succ_apply']
  rw [← hlast, List.length_map, List.length_range'] at hstate
  have hphase : ((tick P start)^[k] s).phase = .slot := by rw [hstate]; exact h
  have hframe : ((tick P start)^[k] s).frame = s.frame := by rw [hstate]
  have htime : ((tick P start)^[k] s).t.toNat = s.t.toNat + k := by
    rw [hstate]
    bv_omega
  rw [tick_last_of_slot P start _ hphase (by omega), hframe, htime]
  rfl

/-- The edges of the slot of a channel run `send_and_advance` and begin what follows (R4, R137, R162). -/
theorem iterate_tick_beginSlot (P : Params) (start : Bool) (c : ChannelId) (s : State) :
    (tick P start)^[16000] (beginSlot P c s) =
      if c.val < 3 then beginSlot P (c + 1) (sendAndAdvance P c s) else afterSlots P (sendAndAdvance P c s) := by
  obtain ⟨hstate, -, -, -⟩ := emitLevels_spec (slotLevels P (frameOf P c s)) (beginSlot P c s)
  have hch : (emitLevels (slotLevels P (frameOf P c s)) (beginSlot P c s)).ch = c := by rw [hstate]; rfl
  have hsend : sendAndAdvance P c s = advance P c (emitLevels (slotLevels P (frameOf P c s)) (beginSlot P c s)) := by
    rw [sendAndAdvance, sendSlot_eq]
    rfl
  have hstart : (beginSlot P c s).t.toNat = 0 := rfl
  rw [iterate_tick_slot_end P start 16000 (beginSlot P c s) rfl (by decide) (by rw [hstart]), hstart,
    beginSlot_frame, ← slotLevels_eq, slotBoundary, hch, hsend]

/-! ### The edges of the margin -/

/-- An edge inside the margin is one more tu of a low line (R163). -/
theorem tick_inside_margin (P : Params) (start : Bool) (s : State) (h : s.phase = .margin)
    (hm : s.m + 1 < P.roundMarginTu) :
    tick P start s = { s with m := s.m + 1, line := extendLine false 1 s.line } := by
  have hlow : irOut P s = false := by simp [irOut, h]
  rw [tick_margin P start s h, hlow, marginEdge]
  exact if_pos (Nat.lt_sub_of_add_lt hm)

/-- The last edge of the margin is one more tu of a low line and ends the round (R163, R166). -/
theorem tick_last_of_margin (P : Params) (start : Bool) (s : State) (h : s.phase = .margin)
    (hm : P.roundMarginTu ≤ s.m + 1) : tick P start s = roundEnd P (emit false 1 s) := by
  have hlow : irOut P s = false := by simp [irOut, h]
  rw [tick_margin P start s h, hlow, marginEdge]
  exact if_neg (Nat.not_lt.mpr (Nat.sub_le_of_le_add hm))

/-- The edges of the margin from any time of it, the last of which ends the round. -/
theorem iterate_tick_margin (P : Params) (start : Bool) (k : Nat) (s : State) (h : s.phase = .margin)
    (hk : 0 < k) (hm : s.m + k = P.roundMarginTu) : (tick P start)^[k] s = roundEnd P (emit false k s) := by
  induction k, hk using Nat.le_induction generalizing s with
  | base => exact tick_last_of_margin P start s h hm.ge
  | succ k hk ih =>
    rw [Function.iterate_succ_apply, tick_inside_margin P start s h (by omega),
      ih { s with m := s.m + 1, line := _ } h (by simp only; omega), Nat.add_comm k 1, ← emit_emit]
    rfl

/-- After the last slot the edges of the margin hold the line low and end the round; with no margin there are none. -/
theorem iterate_tick_afterSlots (P : Params) (start : Bool) (s : State) :
    (tick P start)^[P.roundMarginTu] (afterSlots P s) = roundEnd P (emit false P.roundMarginTu s) := by
  unfold afterSlots
  split
  · next hpos =>
    rw [iterate_tick_margin P start P.roundMarginTu _ rfl hpos (Nat.zero_add _)]
    rfl
  · next hzero =>
    rw [Nat.eq_zero_of_not_pos hzero, emit_zero]
    rfl

/-! ### The edges of a round -/

/-- The sequencer's edges from the start of a round leave the state and the waveform of the operation (R169). -/
theorem iterate_tick_round (P : Params) (start : Bool) (s : State) :
    (tick P start)^[P.roundTu] (beginRound P s) = transmitRound P s := by
  have hsplit : P.roundTu = P.roundMarginTu + 16000 + 16000 + 16000 + 16000 := by
    rw [Params.roundTu_eq]
    omega
  have hslot : ∀ c : ChannelId, c.val < 3 → ∀ u : State,
      (tick P start)^[16000] (beginSlot P c u) = beginSlot P (c + 1) (sendAndAdvance P c u) :=
    fun c hc u => (iterate_tick_beginSlot P start c u).trans (if_pos hc)
  have hlast : ∀ u : State, (tick P start)^[16000] (beginSlot P 3 u) = afterSlots P (sendAndAdvance P 3 u) :=
    fun u => (iterate_tick_beginSlot P start 3 u).trans (if_neg (by decide))
  simp only [hsplit, Function.iterate_add_apply]
  rw [beginRound, hslot 0 (by decide), hslot (0 + 1) (by decide), hslot (0 + 1 + 1) (by decide)]
  exact (congrArg _ (hlast _)).trans (iterate_tick_afterSlots P start _)

/-- The position of the sequencer when `n` periods of a round are over (R168). -/
def AtPeriod (n : Nat) (s : State) : Prop :=
  (n < 64000 → s.phase = .slot ∧ s.ch.val = n / 16000 ∧ s.t.toNat = n % 16000) ∧
  (64000 ≤ n → s.phase = .margin ∧ s.m = n - 64000)

theorem AtPeriod.phase_ne_idle {n : Nat} {s : State} (h : AtPeriod n s) : s.phase ≠ .idle := by
  rcases Nat.lt_or_ge n 64000 with hn | hn
  · simp [(h.1 hn).1]
  · simp [(h.2 hn).1]

theorem beginRound_atPeriod (P : Params) (s : State) : AtPeriod 0 (beginRound P s) :=
  ⟨fun _ => ⟨rfl, rfl, rfl⟩, fun h => absurd h (by decide)⟩

/-- An edge at a slot boundary moves to the next slot or to the margin (R162). -/
theorem slotBoundary_atPeriod (P : Params) (c : Nat) (s : State) (hc : s.ch.val = c)
    (hn : 16000 * (c + 1) < P.roundTu) : AtPeriod (16000 * (c + 1)) (slotBoundary P s) := by
  subst hc
  unfold slotBoundary
  split
  · next hch =>
    refine ⟨fun _ => ⟨rfl, ?_, ?_⟩, fun h => absurd h (by omega)⟩
    · rw [beginSlot_ch]
      omega
    · rw [beginSlot_t, Nat.mul_mod_right]
      rfl
  · next hch =>
    rw [Params.roundTu_eq] at hn
    rw [afterSlots, if_pos (by omega)]
    exact ⟨fun h => absurd h (by omega), fun _ => ⟨rfl, by simp only; omega⟩⟩

/-- Every edge of a round but the last moves one period on (R161 to R163). -/
theorem AtPeriod.tick {n : Nat} {s : State} (h : AtPeriod n s) (P : Params) (start : Bool) (hn : n + 1 < P.roundTu) :
    AtPeriod (n + 1) (tick P start s) := by
  rcases Nat.lt_or_ge n 64000 with hslot | hmargin
  · obtain ⟨hphase, hch, ht⟩ := h.1 hslot
    by_cases hin : s.t.toNat < 15999
    · rw [tick_inside_slot P start s hphase hin]
      refine ⟨fun _ => ⟨hphase, ?_, ?_⟩, fun hge => absurd hge (by omega)⟩
      · rw [emit_ch]
        omega
      · rw [emit_t]
        bv_omega
    · have hend : n + 1 = 16000 * (n / 16000 + 1) := by omega
      rw [tick_last_of_slot P start s hphase (Nat.le_of_not_lt hin), hend]
      exact slotBoundary_atPeriod P _ _ hch (hend ▸ hn)
  · obtain ⟨hphase, hm⟩ := h.2 hmargin
    rw [Params.roundTu_eq] at hn
    rw [tick_inside_margin P start s hphase (by omega)]
    exact ⟨fun hlt => absurd hlt (by omega), fun _ => ⟨hphase, by simp only; omega⟩⟩

/-- The position at every period of a round (R168). -/
theorem iterate_tick_atPeriod (P : Params) (start : Bool) (s : State) (n : Nat) (hn : n < P.roundTu) :
    AtPeriod n ((tick P start)^[n] (beginRound P s)) := by
  induction n with
  | zero => exact beginRound_atPeriod P s
  | succ n ih =>
    rw [Function.iterate_succ_apply']
    exact (ih (Nat.lt_of_succ_lt hn)).tick P start hn

end Sys2Proof.Machine

/-! PROOFS. A run of clock edges through a round with command writes (R58, R165, R170): a write held during the round
comes to the same state as the write made after it. -/

namespace Sys2Proof.Machine

/-! ### Lists of writes -/

/-- Intakes one after another. -/
def intakes (P : Params) (ws : List (ChannelId × Cmd)) (s : State) : State :=
  ws.foldl (fun s w => intake P w.1 w.2 s) s

@[simp] theorem intakes_nil (P : Params) (s : State) : intakes P [] s = s := rfl

@[simp] theorem intakes_cons (P : Params) (w : ChannelId × Cmd) (ws : List (ChannelId × Cmd)) (s : State) :
    intakes P (w :: ws) s = intakes P ws (intake P w.1 w.2 s) := rfl

theorem intakes_append (P : Params) (ws vs : List (ChannelId × Cmd)) (s : State) :
    intakes P (ws ++ vs) s = intakes P vs (intakes P ws s) := List.foldl_append

theorem intakes_phase (P : Params) (ws : List (ChannelId × Cmd)) (s : State) : (intakes P ws s).phase = s.phase := by
  induction ws generalizing s with
  | nil => rfl
  | cons w ws ih => rw [intakes_cons, ih, intake_phase]

/-- In a round the sequencer's action after writes is the same writes after that action (R165, R166). -/
theorem tick_intakes (P : Params) (start : Bool) (ws : List (ChannelId × Cmd)) (s : State) (h : s.phase ≠ .idle) :
    tick P start (intakes P ws s) = intakes P ws (tick P false s) := by
  induction ws generalizing s with
  | nil => exact tick_busy P start s h
  | cons w ws ih =>
    have hw : (intake P w.1 w.2 s).phase ≠ .idle := by rwa [intake_phase]
    rw [intakes_cons, ih _ hw, tick_intake P false _ _ s h, intakes_cons]

/-- As long as a round goes on, writes before any number of edges are the same writes after them. -/
theorem iterate_tick_intakes (P : Params) (ws : List (ChannelId × Cmd)) (n : Nat) (s : State)
    (h : ∀ m < n, ((tick P false)^[m] s).phase ≠ .idle) :
    (tick P false)^[n] (intakes P ws s) = intakes P ws ((tick P false)^[n] s) := by
  induction n with
  | zero => rfl
  | succ n ih =>
    rw [Function.iterate_succ_apply', Function.iterate_succ_apply', ih fun m hm => h m (Nat.lt_succ_of_lt hm),
      tick_intakes P false ws _ (h n (Nat.lt_succ_self n))]

/-! ### The operations of an edge -/

theorem execAll_append (is js : List Instr) (s t : State) (h : execAll is s = .next t) :
    execAll (is ++ js) s = execAll js t := by
  induction is generalizing s with
  | nil => cases h; rfl
  | cons i is ih =>
    simp only [List.cons_append, execAll] at h ⊢
    split at h
    · exact ih _ h
    · cases h
    · cases h

theorem inRange_rst (p : Pins) (h : inRange p = true) : p.rst = false := by
  simp only [inRange, Bool.and_eq_true, Bool.not_eq_true'] at h
  exact h.1

/-- An in-range edge presents a list of writes, of one or none: its intake takes them in, and so do its operations. -/
theorem inRange_writes (p : Pins) (h : inRange p = true) :
    ∃ ws, ∀ s, takeCommand p s = .next (intakes Config.params ws s) ∧
      execAll (writesOf p) s = .next (intakes Config.params ws s) := by
  cases hvalid : p.cmdValid with
  | false => exact ⟨[], fun s => by simp [takeCommand, writesOf, execAll, hvalid]⟩
  | true =>
    cases hdecode : decodeCommand p with
    | error r => simp [inRange, hvalid, hdecode] at h
    | ok i =>
      have hwf : i.WellFormed = true := by
        simp only [inRange, hvalid, hdecode, Bool.not_true, Bool.false_or, Bool.and_eq_true] at h
        exact h.2
      obtain ⟨c, v, -, hexec⟩ := exec_command i (decodeCommand_isCommand p i hdecode) hwf
      exact ⟨[(c, v)], fun s => by simp [takeCommand, writesOf, execAll, hvalid, hdecode, hexec]⟩

/-! ### The coming inputs are carried along -/

/-- The state with other coming inputs. -/
def setInputs (ps : List Pins) (s : State) : State := { s with inputs := ps }

@[simp] theorem setInputs_phase (ps : List Pins) (s : State) : (setInputs ps s).phase = s.phase := rfl

theorem intake_setInputs (P : Params) (c : ChannelId) (v : Cmd) (ps : List Pins) (s : State) :
    intake P c v (setInputs ps s) = setInputs ps (intake P c v s) := by
  unfold intake
  rw [setInputs_phase]
  split <;> rfl

theorem intakes_setInputs (P : Params) (ws : List (ChannelId × Cmd)) (ps : List Pins) (s : State) :
    intakes P ws (setInputs ps s) = setInputs ps (intakes P ws s) := by
  induction ws generalizing s with
  | nil => rfl
  | cons w ws ih => rw [intakes_cons, intake_setInputs, ih, intakes_cons]

theorem roundEnd_setInputs (P : Params) (ps : List Pins) (s : State) :
    roundEnd P (setInputs ps s) = setInputs ps (roundEnd P s) := by
  simp only [roundEnd, commitShadow_eq]
  rfl

theorem slotBoundary_setInputs (P : Params) (ps : List Pins) (s : State) :
    slotBoundary P (setInputs ps s) = setInputs ps (slotBoundary P s) := by
  unfold slotBoundary afterSlots
  rw [show (setInputs ps s).ch = s.ch from rfl]
  split
  · rfl
  · split
    · rfl
    · exact roundEnd_setInputs P ps (advance P s.ch s)

theorem slotEdge_setInputs (P : Params) (ps : List Pins) (s : State) :
    slotEdge P (setInputs ps s) = setInputs ps (slotEdge P s) := by
  unfold slotEdge
  rw [show (setInputs ps s).t = s.t from rfl]
  split
  · rfl
  · exact slotBoundary_setInputs P ps s

theorem marginEdge_setInputs (P : Params) (ps : List Pins) (s : State) :
    marginEdge P (setInputs ps s) = setInputs ps (marginEdge P s) := by
  unfold marginEdge
  rw [show (setInputs ps s).m = s.m from rfl]
  split
  · rfl
  · exact roundEnd_setInputs P ps s

/-- The sequencer neither reads nor changes what the caller will present (log 2). -/
theorem tick_setInputs (P : Params) (start : Bool) (ps : List Pins) (s : State) :
    tick P start (setInputs ps s) = setInputs ps (tick P start s) := by
  cases hphase : s.phase with
  | idle =>
    rw [tick_idle P start s hphase, tick_idle P start (setInputs ps s) hphase]
    split <;> rfl
  | slot =>
    rw [tick_slot P start s hphase, ← slotEdge_setInputs]
    exact tick_slot P start (setInputs ps s) hphase
  | margin =>
    rw [tick_margin P start s hphase, ← marginEdge_setInputs]
    exact tick_margin P start (setInputs ps s) hphase

/-! ### Runs -/

theorem run_succ_of_step (k : Nat) (s t : State) (h : step s = .next t) :
    Host.Core.run Sys2Proof.core (k + 1) s = Host.Core.run Sys2Proof.core k t := by
  have hcore : Sys2Proof.core.step s = .next t := h
  simp only [Host.Core.run, hcore]

/-- An in-range edge: its writes, then the sequencer's action. -/
theorem step_inRange (p : Pins) (rest : List Pins) (s : State) (h : inRange p = true) (ws : List (ChannelId × Cmd))
    (hws : ∀ u, takeCommand p u = .next (intakes Config.params ws u)) :
    step (setInputs (p :: rest) s) =
      .next (setInputs rest (tick Config.params p.roundStart (intakes Config.params ws s))) := by
  have htake : takeCommand p (setInputs rest s) = .next (setInputs rest (intakes Config.params ws s)) := by
    rw [hws, intakes_setInputs]
  rw [← tick_setInputs]
  exact step_of_takeCommand (setInputs (p :: rest) s) _ (inRange_rst p h) htake

/-- As long as a round goes on, a run of in-range edges is the run of the sequencer alone followed by the writes that
the edges present, in their order. -/
theorem run_busy (ps rest : List Pins) (s : State) (hin : ∀ q ∈ ps, inRange q = true)
    (hbusy : ∀ n < ps.length, ((tick Config.params false)^[n] s).phase ≠ .idle) :
    ∃ ws, (∀ u, execAll (ps.flatMap writesOf) u = .next (intakes Config.params ws u)) ∧
      Host.Core.run Sys2Proof.core ps.length (setInputs (ps ++ rest) s) =
        .next (setInputs rest (intakes Config.params ws ((tick Config.params false)^[ps.length] s))) := by
  induction ps generalizing s with
  | nil => exact ⟨[], fun _ => rfl, rfl⟩
  | cons p ps ih =>
    obtain ⟨hp, hps⟩ := List.forall_mem_cons.mp hin
    obtain ⟨ws, hws⟩ := inRange_writes p hp
    have hstep := step_inRange p (ps ++ rest) s hp ws fun u => (hws u).1
    rw [tick_intakes _ _ ws s (hbusy 0 (Nat.succ_pos _))] at hstep
    have hlater : ∀ n < ps.length, ((tick Config.params false)^[n] (tick Config.params false s)).phase ≠ .idle :=
      fun n hn => hbusy (n + 1) (Nat.succ_lt_succ hn)
    have hmove : ∀ n ≤ ps.length,
        (tick Config.params false)^[n] (intakes Config.params ws (tick Config.params false s)) =
          intakes Config.params ws ((tick Config.params false)^[n + 1] s) :=
      fun n hn => iterate_tick_intakes _ ws n _ fun m hm => hlater m (Nat.lt_of_lt_of_le hm hn)
    obtain ⟨vs, hvs, hrun⟩ := ih (intakes Config.params ws (tick Config.params false s)) hps fun n hn => by
      rw [hmove n hn.le, intakes_phase]
      exact hlater n hn
    refine ⟨ws ++ vs, fun u => ?_, ?_⟩
    · rw [List.flatMap_cons, execAll_append _ _ _ _ (hws u).2, hvs, intakes_append]
    · rw [hmove _ le_rfl, ← intakes_append] at hrun
      exact (run_succ_of_step _ _ _ hstep).trans hrun

/-- A run through a whole round from its first period: the operation, then the writes that the edges present. -/
theorem run_round (ps rest : List Pins) (s : State) (hin : ∀ q ∈ ps, inRange q = true)
    (hlength : ps.length = Config.params.roundTu) :
    ∃ ws, (∀ u, execAll (ps.flatMap writesOf) u = .next (intakes Config.params ws u)) ∧
      Host.Core.run Sys2Proof.core ps.length (setInputs (ps ++ rest) (beginRound Config.params s)) =
        .next (setInputs rest (intakes Config.params ws (transmitRound Config.params s))) := by
  obtain ⟨ws, hws, hrun⟩ := run_busy ps rest (beginRound Config.params s) hin fun n hn =>
    (iterate_tick_atPeriod Config.params false s n (hlength ▸ hn)).phase_ne_idle
  refine ⟨ws, hws, hrun.trans ?_⟩
  rw [hlength, iterate_tick_round]

theorem exec_transmitRound_idle (s : State) (h : s.phase = .idle) :
    exec .transmitRound s = .next (transmitRound Config.params s) := if_pos h

/-- The operation of a round does not touch what the caller will present. -/
theorem transmitRound_setInputs (P : Params) (ps : List Pins) (s : State) :
    transmitRound P (setInputs ps s) = setInputs ps (transmitRound P s) := by
  rw [← iterate_tick_round P false, ← iterate_tick_round P false]
  exact Function.Commute.iterate_left (fun u => tick_setInputs P false ps u) P.roundTu (beginRound P s)

/-- Settles O50: the starting edge takes in its command and begins the round on the state that leaves; the later
commands change places with the edges of the round. -/
theorem roundWithWritesRefinesOperations : Obligations.RoundWithWritesRefinesOperations := by
  intro s p ps hidle _ hinputs hstart hp hps hlength
  obtain ⟨ws, hws⟩ := inRange_writes p hp
  obtain ⟨vs, hvs, hrun⟩ := run_round ps [] (intakes Config.params ws s) hps hlength
  have hphase : (intakes Config.params ws s).phase = .idle := (intakes_phase _ ws s).trans hidle
  have hstep : step s =
      .next (setInputs (ps ++ []) (beginRound Config.params (intakes Config.params ws s))) := by
    have h := step_inRange p ps s hp ws fun u => (hws u).1
    rw [hstart, tick_idle _ true _ hphase, ← hinputs] at h
    rw [List.append_nil]
    exact h
  refine ⟨_, ?_, (run_succ_of_step _ _ _ hstep).trans (hlength ▸ hrun)⟩
  change execAll _ (setInputs [] s) = _
  have hexec : exec .transmitRound (intakes Config.params ws (setInputs [] s)) =
      .next (setInputs [] (transmitRound Config.params (intakes Config.params ws s))) := by
    rw [intakes_setInputs, exec_transmitRound_idle (setInputs [] _) hphase, transmitRound_setInputs]
  rw [execAll_append _ _ _ _ (hws _).2, execAll_cons_of_next _ _ _ _ hexec, hvs, intakes_setInputs]

end Sys2Proof.Machine

/-! PROOFS. The encodings (R63 to R86, R102): the port and the symbols carry every operation, a wire frame carries the
command it was made from, and what is no operation is rejected; with the edges that the port's encoding makes complete
(R167, R177). -/

namespace Sys2Proof

/-! ### The fields of a frame -/

theorem field1_append (f1 f2 f3 f4 : Nibble) : field1 (f1 ++ f2 ++ f3 ++ f4) = f1 := by
  rw [field1, BitVec.extractLsb'_append_eq_of_le (by omega), BitVec.extractLsb'_append_eq_of_le (by omega)]
  exact BitVec.extractLsb'_append_eq_left

theorem field2_append (f1 f2 f3 f4 : Nibble) : field2 (f1 ++ f2 ++ f3 ++ f4) = f2 := by
  rw [field2, BitVec.extractLsb'_append_eq_of_le (by omega), BitVec.extractLsb'_append_eq_of_le (by omega)]
  exact BitVec.extractLsb'_append_eq_right

theorem field3_append (f1 f2 f3 f4 : Nibble) : field3 (f1 ++ f2 ++ f3 ++ f4) = f3 := by
  rw [field3, BitVec.extractLsb'_append_eq_of_le (by omega)]
  exact BitVec.extractLsb'_append_eq_right

theorem field4_append (f1 f2 f3 f4 : Nibble) : field4 (f1 ++ f2 ++ f3 ++ f4) = f4 :=
  BitVec.extractLsb'_append_eq_right

/-- A frame is its four fields (R64). -/
theorem fields_append (F : Frame) : field1 F ++ field2 F ++ field3 F ++ field4 F = F := by
  simp only [field1, field2, field3, field4]
  rw [BitVec.extractLsb'_append_extractLsb'_eq_extractLsb' (by rfl),
    BitVec.extractLsb'_append_extractLsb'_eq_extractLsb' (by rfl),
    BitVec.extractLsb'_append_extractLsb'_eq_extractLsb' (by rfl), BitVec.extractLsb'_eq_self]

/-- The bit at a place, as the one-bit word that a field is made of. -/
theorem bit_getLsbD {w : Nat} (x : BitVec w) (i : Nat) : Machine.bit (x.getLsbD i) = x.extractLsb' i 1 := by
  ext k hk
  obtain rfl : k = 0 := by omega
  simp [Machine.bit]

/-- Field 1 is the toggle bit, the escape bit and the channel (R65). -/
theorem field1_eq (F : Frame) :
    field1 F = Machine.bit (F.getLsbD 15) ++ Machine.bit (F.getLsbD 14) ++ frameChannel F := by
  rw [bit_getLsbD, bit_getLsbD, frameChannel, BitVec.extractLsb'_append_extractLsb'_eq_extractLsb' (by rfl),
    BitVec.extractLsb'_append_extractLsb'_eq_extractLsb' (by rfl)]
  rfl

/-- Field 2 is the address bit, two mode bits and the output select, outside the escape layout (R66, R67). -/
theorem field2_eq (F : Frame) :
    field2 F =
      Machine.bit (F.getLsbD 11) ++ Machine.bit (F.getLsbD 10) ++ Machine.bit (F.getLsbD 9) ++ F.extractLsb' 8 1 := by
  rw [bit_getLsbD, bit_getLsbD, bit_getLsbD, BitVec.extractLsb'_append_extractLsb'_eq_extractLsb' (by rfl),
    BitVec.extractLsb'_append_extractLsb'_eq_extractLsb' (by rfl),
    BitVec.extractLsb'_append_extractLsb'_eq_extractLsb' (by rfl)]
  rfl

/-- Field 3 is two ComboDirect codes in the layout of R69, output B's above. -/
theorem field3_eq (F : Frame) : field3 F = F.extractLsb' 6 2 ++ F.extractLsb' 4 2 := by
  rw [BitVec.extractLsb'_append_extractLsb'_eq_extractLsb' (by rfl)]
  rfl

theorem append_inj {m n : Nat} {x x' : BitVec m} {y y' : BitVec n} : x ++ y = x' ++ y' ↔ x = x' ∧ y = y' := by
  refine ⟨fun h => ⟨?_, ?_⟩, fun ⟨hx, hy⟩ => hx ▸ hy ▸ rfl⟩
  · rw [← BitVec.extractLsb'_append_eq_left (a := x) (b := y), h, BitVec.extractLsb'_append_eq_left]
  · rw [← BitVec.extractLsb'_append_eq_right (a := x) (b := y), h, BitVec.extractLsb'_append_eq_right]

theorem bit_inj {a b : Bool} : Machine.bit a = Machine.bit b ↔ a = b := BitVec.ofBool_eq_iff_eq

/-- A word with one bit and a further word after it is known by the three. -/
theorem append_bit_append_inj {m n : Nat} {x x' : BitVec m} {b b' : Bool} {y y' : BitVec n} :
    x ++ Machine.bit b ++ y = x' ++ Machine.bit b' ++ y' ↔ x = x' ∧ b = b' ∧ y = y' := by
  rw [append_inj, append_inj, bit_inj, and_assoc]

/-- Which bits of a frame its mode field fixes (R66, R67). -/
theorem field2_eq_iff (F : Frame) (address mode submode : Bool) (sel : BitVec 1) :
    field2 F = Machine.bit address ++ Machine.bit mode ++ Machine.bit submode ++ sel ↔
      F.getLsbD 11 = address ∧ F.getLsbD 10 = mode ∧ F.getLsbD 9 = submode ∧ F.extractLsb' 8 1 = sel := by
  rw [field2_eq]
  refine append_bit_append_inj.trans ?_
  rw [append_inj, bit_inj, bit_inj, and_assoc]

/-- `producible` in the terms of R84. -/
theorem producible_iff (F : Frame) :
    producible F = true ↔
      ¬ (F.getLsbD 14 = false ∧ F.getLsbD 11 = true) ∧
      ¬ (F.getLsbD 14 = false ∧ F.getLsbD 10 = false ∧ F.getLsbD 9 = true) ∧
      field4 F = (0xF#4 ^^^ field1 F ^^^ field2 F ^^^ field3 F) := by
  rw [producible, Bool.and_eq_true, ← and_assoc]
  refine and_congr ?_ beq_iff_eq
  cases F.getLsbD 14 with
  | true => simp
  | false => simp [imp_iff_or_not, or_comm]

/-- The three layouts of a frame that can be produced: escape, wire modes 4 to 7, and wire modes 0 and 1. -/
theorem producible_cases (F : Frame) (h : producible F = true) :
    F.getLsbD 14 = true ∨
    (F.getLsbD 14 = false ∧ F.getLsbD 11 = false ∧ F.getLsbD 10 = true) ∨
    (F.getLsbD 14 = false ∧ F.getLsbD 11 = false ∧ F.getLsbD 10 = false ∧ F.getLsbD 9 = false) := by
  obtain ⟨haddress, hmode, -⟩ := (producible_iff F).mp h
  cases hescape : F.getLsbD 14 with
  | true => exact .inl rfl
  | false =>
    have hzero : F.getLsbD 11 = false := Bool.eq_false_iff.mpr fun ha => haddress ⟨hescape, ha⟩
    cases hten : F.getLsbD 10 with
    | true => exact .inr (.inl ⟨rfl, hzero, rfl⟩)
    | false => exact .inr (.inr ⟨rfl, hzero, rfl, Bool.eq_false_iff.mpr fun hn => hmode ⟨hescape, hten, hn⟩⟩)

end Sys2Proof

namespace Sys2Proof.Machine

/-! ### The frame of a command -/

theorem field1_eq_f1Of_iff (F : Frame) (v : Cmd) (tg : Bool) (c : ChannelId) :
    field1 F = f1Of v tg c ↔
      F.getLsbD 15 = tg ∧ F.getLsbD 14 = escape v ∧ frameChannel F = BitVec.ofNat 2 c.val := by
  rw [field1_eq]
  refine append_bit_append_inj.trans ?_
  rw [bit_inj]

/-- A frame is that of a command exactly when its first three fields are and its checksum is right (R102, R103). -/
theorem eq_encodeFrame_iff (P : Params) (F : Frame) (v : Cmd) (tg : Bool) (c : ChannelId) :
    F = encodeFrame P v tg c ↔
      field1 F = f1Of v tg c ∧ field2 F = f2Of P v ∧ field3 F = f3Of v ∧ checksumOk F = true := by
  refine ⟨?_, fun ⟨h1, h2, h3, hsum⟩ => ?_⟩
  · rintro rfl
    simp only [checksumOk, encodeFrame, field1_append, field2_append, field3_append, field4_append, checksum,
      beq_self_eq_true, and_self]
  · rw [checksumOk, beq_iff_eq] at hsum
    rw [encodeFrame, ← h1, ← h2, ← h3, checksum, ← hsum, fields_append]

/-- The command that a frame carries, read by the tree of R86. -/
def frameCmd (P : Params) (F : Frame) : Cmd :=
  if F.getLsbD 14 then .comboPwm (field3 F) (field2 F)
  else if F.getLsbD 10 then
    if F.getLsbD 9 = P.submodePwm then .singlePwm (F.extractLsb' 8 1) (field3 F)
    else .singleCstid (F.extractLsb' 8 1) (field3 F)
  else if F.getLsbD 8 then .comboDirect (F.extractLsb' 4 2) (F.extractLsb' 6 2)
  else .extended (field3 F)

/-- The channel that a frame addresses (R65). -/
def frameChannelId (F : Frame) : ChannelId := (frameChannel F).toFin

theorem frameChannelId_eq_iff (F : Frame) (c : ChannelId) :
    frameChannelId F = c ↔ frameChannel F = BitVec.ofNat 2 c.val := by
  rw [← BitVec.toFin_inj, frameChannelId, Fin.ext_iff, Fin.ext_iff, BitVec.toFin_ofNat]
  simp

/-- What the decoder makes of a frame that can be produced: the operation that stores the command it carries. -/
theorem decodeFrame_of_producible (P : Params) (F : Frame) (h : producible F = true) :
    decodeFrame P F = .ok (commandOp (frameChannelId F) (frameCmd P F)) := by
  unfold decodeFrame frameCmd
  rcases producible_cases F h with hescape | ⟨hescape, haddress, hmode⟩ | ⟨hescape, haddress, hmode, hsubmode⟩
  · rw [if_pos hescape, if_pos hescape]
    rfl
  · simp only [hescape, haddress, hmode, if_true, if_false, Bool.false_eq_true]
    split <;> rfl
  · simp only [hescape, haddress, hmode, hsubmode, if_false, Bool.false_eq_true]
    split <;> rfl

theorem escape_frameCmd (P : Params) (F : Frame) : F.getLsbD 14 = escape (frameCmd P F) := by
  unfold frameCmd
  cases F.getLsbD 14 with
  | true => rfl
  | false =>
    simp only [if_false, Bool.false_eq_true]
    (repeat' split) <;> rfl

/-- The operand fields of a frame that can be produced are those of the command it carries. -/
theorem fields_frameCmd (P : Params) (F : Frame) (h : producible F = true) :
    field2 F = f2Of P (frameCmd P F) ∧ field3 F = f3Of (frameCmd P F) := by
  unfold frameCmd
  rcases producible_cases F h with hescape | ⟨hescape, haddress, hmode⟩ | ⟨hescape, haddress, hmode, hsubmode⟩
  · rw [if_pos hescape]
    exact ⟨rfl, rfl⟩
  · simp only [hescape, hmode, if_true, if_false, Bool.false_eq_true]
    split
    · next hpwm => exact ⟨(field2_eq_iff F false true _ _).mpr ⟨haddress, hmode, hpwm, rfl⟩, rfl⟩
    · next hcstid =>
      exact ⟨(field2_eq_iff F false true _ _).mpr ⟨haddress, hmode, Bool.eq_not.mpr hcstid, rfl⟩, rfl⟩
  · simp only [hescape, hmode, if_false, Bool.false_eq_true]
    have hselect := bit_getLsbD F 8
    cases hsel : F.getLsbD 8 <;> rw [hsel] at hselect
    · exact ⟨(field2_eq_iff F false false false 0).mpr ⟨haddress, hmode, hsubmode, hselect.symm⟩, rfl⟩
    · exact ⟨(field2_eq_iff F false false false 1).mpr ⟨haddress, hmode, hsubmode, hselect.symm⟩, field3_eq F⟩

/-- The frame of a command can be produced, and carries that command. -/
theorem encodeFrame_spec (P : Params) (v : Cmd) (tg : Bool) (c : ChannelId) :
    producible (encodeFrame P v tg c) = true ∧ frameCmd P (encodeFrame P v tg c) = v := by
  obtain ⟨h1, h2, h3, hsum⟩ := (eq_encodeFrame_iff P _ v tg c).mp rfl
  generalize encodeFrame P v tg c = F at *
  obtain ⟨-, hescape, -⟩ := (field1_eq_f1Of_iff F v tg c).mp h1
  have hsel := (bit_getLsbD F 8).symm
  cases v with
  | extended d =>
    obtain ⟨haddress, hmode, hsubmode, hzero⟩ := (field2_eq_iff F false false false (bit false)).mp h2
    rw [hsel, bit_inj] at hzero
    simp only [frameCmd, producible, hescape, escape, haddress, hmode, hsubmode, hzero, h3]
    exact ⟨hsum, rfl⟩
  | comboDirect a b =>
    obtain ⟨haddress, hmode, hsubmode, hone⟩ := (field2_eq_iff F false false false (bit true)).mp h2
    rw [hsel, bit_inj] at hone
    obtain ⟨hb, ha⟩ := append_inj.mp ((field3_eq F).symm.trans h3)
    simp only [frameCmd, producible, hescape, escape, haddress, hmode, hsubmode, hone, ha, hb]
    exact ⟨hsum, rfl⟩
  | comboPwm a b =>
    simp only [frameCmd, producible, hescape, escape, h2, h3]
    exact ⟨hsum, rfl⟩
  | singlePwm sel p =>
    obtain ⟨haddress, hmode, hsubmode, rfl⟩ := (field2_eq_iff F false true P.submodePwm sel).mp h2
    simp only [frameCmd, producible, hescape, escape, haddress, hmode, hsubmode, h3]
    exact ⟨hsum, rfl⟩
  | singleCstid sel d =>
    obtain ⟨haddress, hmode, hsubmode, rfl⟩ := (field2_eq_iff F false true P.submodeCstid sel).mp h2
    have hcstid : ¬ P.submodeCstid = P.submodePwm := Bool.not_not_eq.mpr rfl
    simp only [frameCmd, producible, hescape, escape, haddress, hmode, hsubmode, hcstid, h3]
    exact ⟨hsum, rfl⟩

/-- The frames of a command, a toggle and a channel are those that can be produced and carry these three. -/
theorem eq_encodeFrame_iff_carries (P : Params) (F : Frame) (v : Cmd) (tg : Bool) (c : ChannelId) :
    F = encodeFrame P v tg c ↔
      producible F = true ∧ frameCmd P F = v ∧ F.getLsbD 15 = tg ∧ frameChannelId F = c := by
  refine ⟨?_, ?_⟩
  · rintro rfl
    obtain ⟨hproducible, hcmd⟩ := encodeFrame_spec P v tg c
    obtain ⟨h1, -⟩ := (eq_encodeFrame_iff P _ v tg c).mp rfl
    obtain ⟨htoggle, -, hchannel⟩ := (field1_eq_f1Of_iff _ v tg c).mp h1
    exact ⟨hproducible, hcmd, htoggle, (frameChannelId_eq_iff _ c).mpr hchannel⟩
  · rintro ⟨hproducible, rfl, rfl, rfl⟩
    obtain ⟨h2, h3⟩ := fields_frameCmd P F hproducible
    refine (eq_encodeFrame_iff P F _ _ _).mpr ⟨?_, h2, h3, ((Bool.and_eq_true _ _).mp hproducible).2⟩
    exact (field1_eq_f1Of_iff F _ _ _).mpr ⟨rfl, escape_frameCmd P F, (frameChannelId_eq_iff F _).mp rfl⟩

/-- Settles O2: the frame carries the command, and the decoder reads what a frame carries. -/
theorem frameCarriesTheStoredCommand : Obligations.FrameCarriesTheStoredCommand := by
  intro P v tg c
  obtain ⟨hproducible, hcmd, htoggle, hchannel⟩ := (eq_encodeFrame_iff_carries P _ v tg c).mp rfl
  refine ⟨?_, htoggle, ((Bool.and_eq_true _ _).mp hproducible).2⟩
  rw [decodeFrame_of_producible P _ hproducible, hcmd, hchannel]

/-- Settles O3: a frame that can be produced is the frame of what it carries, and of nothing else. -/
theorem framesProducedExactlyOnce : Obligations.FramesProducedExactlyOnce := by
  intro P F
  simp only [← producible_iff, eq_encodeFrame_iff_carries]
  refine ⟨⟨fun ⟨_, _, _, hproducible, _⟩ => hproducible, fun h => ⟨_, _, _, h, rfl, rfl, rfl⟩⟩, ?_⟩
  rintro v tg c v' tg' c' ⟨-, rfl, rfl, rfl⟩ ⟨-, hcmd, htoggle, hchannel⟩
  exact ⟨hcmd, htoggle, hchannel⟩

end Sys2Proof.Machine

namespace Sys2Proof

/-! ### The command port -/

@[simp] theorem channelInRange_toNat (c : BitVec 2) : channelInRange c.toNat = true := decide_eq_true c.isLt

@[simp] theorem nibbleInRange_toNat (a : Nibble) : nibbleInRange a.toNat = true := decide_eq_true a.isLt

@[simp] theorem selectInRange_toNat (sel : BitVec 1) : selectInRange sel.toNat = true := decide_eq_true sel.isLt

/-- Everything the port can present with `cmd_valid = 1`: a ComboDirect command, another command, which is then in
range, or no command of the API (R80, R81). -/
theorem decodeCommand_cases (p : Pins) :
    (p.cmdKind = 1 ∧ decodeCommand p =
      .ok (.setComboDirect p.cmdChannel.toNat p.cmdA.toNat p.cmdInvA p.cmdB.toNat p.cmdInvB)) ∨
    (p.cmdKind.toNat < 5 ∧ ∃ i, decodeCommand p = .ok i ∧ i.WellFormed = true) ∨
    (5 ≤ p.cmdKind.toNat ∧ decodeCommand p = .error .notACommand) := by
  unfold decodeCommand
  split
  · next h => exact .inr (.inl ⟨by simp [h], _, rfl, by simp [Instr.WellFormed]⟩)
  split
  · next h => exact .inl ⟨h, rfl⟩
  split
  · next h => exact .inr (.inl ⟨by simp [h], _, rfl, by simp [Instr.WellFormed]⟩)
  split
  · next h => exact .inr (.inl ⟨by simp [h], _, rfl, by simp [Instr.WellFormed]⟩)
  split
  · next h => exact .inr (.inl ⟨by simp [h], _, rfl, by simp [Instr.WellFormed]⟩)
  · refine .inr (.inr ⟨?_, rfl⟩)
    bv_omega

/-- Settles O5: the tree meets these tests first, and a kind from 5 on is that of no command. -/
theorem reservedEncodingsAreRejected : Obligations.ReservedEncodingsAreRejected := by
  refine ⟨fun P F hescape haddress => ?_, fun P F hescape haddress hmode hsubmode => ?_, fun p hkind => ?_⟩
  · simp only [decodeFrame, hescape, haddress, if_true, if_false, Bool.false_eq_true]
  · simp only [decodeFrame, hescape, haddress, hmode, hsubmode, if_true, if_false, Bool.false_eq_true]
  · rcases decodeCommand_cases p with ⟨hone, -⟩ | ⟨hlt, -⟩ | ⟨-, herror⟩
    · rw [hone] at hkind
      exact absurd hkind (by decide)
    · omega
    · exact herror

/-- Settles O4: the decode tree and the port decoder, run on the six words. -/
theorem specWordsDecode : Obligations.SpecWordsDecode := by
  unfold Obligations.SpecWordsDecode
  decide

/-! ### Decoding what is encoded -/

/-- A symbol is known by its pause (R78). -/
theorem decodeSymbol_markCycles (P : Params) (n : Nat) :
    decodeSymbol P P.markCycles n =
      if n = 0 then .ok .mark else if n = Config.pauseStartStop then .ok .startStop
      else if n = Config.pauseOne then .ok .bit1 else if n = Config.pauseZero then .ok .bit0
      else .error .notASymbol := if_pos rfl

theorem channel_ofNat {c : Nat} (h : channelInRange c = true) : (BitVec.ofNat 2 c).toNat = c := by
  rw [BitVec.toNat_ofNat, Nat.mod_eq_of_lt (of_decide_eq_true h)]

theorem nibble_ofNat {a : Nat} (h : nibbleInRange a = true) : (BitVec.ofNat 4 a).toNat = a := by
  rw [BitVec.toNat_ofNat, Nat.mod_eq_of_lt (of_decide_eq_true h)]

theorem direct_ofNat {a : Nat} (h : directInRange a = true) : (BitVec.ofNat 4 a).toNat = a := by
  rw [BitVec.toNat_ofNat, Nat.mod_eq_of_lt (Nat.lt_trans (of_decide_eq_true h) (by decide))]

theorem select_ofNat {sel : Nat} (h : selectInRange sel = true) : (BitVec.ofNat 1 sel).toNat = sel := by
  rw [BitVec.toNat_ofNat, Nat.mod_eq_of_lt (of_decide_eq_true h)]

/-- Settles O1: the port carries every operand in range, and each symbol and low line has a code of its own. -/
theorem decodeEncodeAgree : Obligations.DecodeEncodeAgree := by
  intro P i hw
  cases i with
  | setExtended c d =>
    rw [Instr.WellFormed, Bool.and_eq_true] at hw
    obtain ⟨hc, hd⟩ := hw
    change Except.ok
      (Instr.setExtended (BitVec.ofNat 2 c).toNat (BitVec.ofNat 4 d).toNat) = _
    rw [channel_ofNat hc, nibble_ofNat hd]
  | setComboDirect c a ia b ib =>
    rw [Instr.WellFormed, Bool.and_eq_true, Bool.and_eq_true] at hw
    obtain ⟨⟨hc, ha⟩, hb⟩ := hw
    change Except.ok
      (Instr.setComboDirect (BitVec.ofNat 2 c).toNat (BitVec.ofNat 4 a).toNat ia (BitVec.ofNat 4 b).toNat ib) = _
    rw [channel_ofNat hc, direct_ofNat ha, direct_ofNat hb]
  | setComboPwm c a ia b ib =>
    rw [Instr.WellFormed, Bool.and_eq_true, Bool.and_eq_true] at hw
    obtain ⟨⟨hc, ha⟩, hb⟩ := hw
    change Except.ok
      (Instr.setComboPwm (BitVec.ofNat 2 c).toNat (BitVec.ofNat 4 a).toNat ia (BitVec.ofNat 4 b).toNat ib) = _
    rw [channel_ofNat hc, nibble_ofNat ha, nibble_ofNat hb]
  | setSinglePwm c sel p inv =>
    rw [Instr.WellFormed, Bool.and_eq_true, Bool.and_eq_true] at hw
    obtain ⟨⟨hc, hsel⟩, hp⟩ := hw
    change Except.ok
      (Instr.setSinglePwm (BitVec.ofNat 2 c).toNat (BitVec.ofNat 1 sel).toNat (BitVec.ofNat 4 p).toNat inv) = _
    rw [channel_ofNat hc, select_ofNat hsel, nibble_ofNat hp]
  | setSingleCstid c sel d =>
    rw [Instr.WellFormed, Bool.and_eq_true, Bool.and_eq_true] at hw
    obtain ⟨⟨hc, hsel⟩, hd⟩ := hw
    change Except.ok
      (Instr.setSingleCstid (BitVec.ofNat 2 c).toNat (BitVec.ofNat 1 sel).toNat (BitVec.ofNat 4 d).toNat) = _
    rw [channel_ofNat hc, select_ofNat hsel, nibble_ofNat hd]
  | transmitRound => rfl
  | idleSlot => rfl
  | mark => exact decodeSymbol_markCycles P 0
  | startStop => exact decodeSymbol_markCycles P Config.pauseStartStop
  | bit1 => exact decodeSymbol_markCycles P Config.pauseOne
  | bit0 => exact decodeSymbol_markCycles P Config.pauseZero
  | pad => rfl

end Sys2Proof

namespace Sys2Proof.Machine

/-! ### Which edges complete -/

theorem step_of_refused (s : State) (r : Refusal) (hrst : (nextPins s).rst = false)
    (htake : takeCommand (nextPins s) (dropPins s) = .refused r) : step s = .refused r := by
  rw [show step s = edge (nextPins s) (dropPins s) from rfl, edge, htake, hrst]
  rfl

theorem takeCommand_ok {p : Pins} {i : Instr} (hvalid : p.cmdValid = true) (hdecode : decodeCommand p = .ok i)
    (s : State) : takeCommand p s = exec i s := by
  rw [takeCommand, if_pos hvalid, hdecode]

theorem takeCommand_error {p : Pins} {r : Reject} (hvalid : p.cmdValid = true) (hdecode : decodeCommand p = .error r)
    (s : State) : takeCommand p s = .refused .notACommand := by
  rw [takeCommand, if_pos hvalid, hdecode]

/-- An edge without reset that is not in range presents a command, and none that is well formed. -/
theorem not_inRange {p : Pins} (hrst : p.rst = false) (h : inRange p = false) :
    p.cmdValid = true ∧ ∀ i, decodeCommand p = .ok i → i.WellFormed = false := by
  rw [inRange, hrst, Bool.not_false, Bool.true_and, Bool.or_eq_false_iff, Bool.not_eq_false'] at h
  obtain ⟨hvalid, hbad⟩ := h
  refine ⟨hvalid, fun i hi => ?_⟩
  rwa [hi] at hbad

/-- A ComboDirect command whose channel is in range is refused for its codes (U2). -/
theorem exec_setComboDirect_refused (c : BitVec 2) (a : Nat) (ia : Bool) (b : Nat) (ib : Bool) (s : State)
    (h : (Instr.setComboDirect c.toNat a ia b ib).WellFormed = false) :
    (4 ≤ a ∨ 4 ≤ b) ∧ exec (.setComboDirect c.toNat a ia b ib) s = .refused .codeOutOfRange := by
  rw [Instr.WellFormed, channelInRange_toNat, Bool.true_and] at h
  have hcmd : comboDirectCmd a ia b ib = none := by
    rw [← Option.not_isSome_iff_eq_none, comboDirectCmd_isSome, h]
    exact Bool.false_ne_true
  constructor
  · rw [Bool.and_eq_false_iff, directInRange, directInRange, decide_eq_false_iff_not, decide_eq_false_iff_not] at h
    omega
  · have hchannel : channelOf c.toNat = some c.toFin := channelOf_val c.toFin
    simp only [exec, execSetComboDirect, issue, hchannel, hcmd]

/-- Settles O40: an in-range edge takes its writes in; of the others, a ComboDirect command is refused for its codes, a
command of another kind below 5 would be in range, and from 5 on there is no command. -/
theorem stepCompletesExactlyInRange : Obligations.StepCompletesExactlyInRange := by
  intro s
  refine ⟨?_, fun hrst hout => ?_⟩
  · rintro (hrst | hin)
    · exact ⟨_, step_of_reset s hrst⟩
    · obtain ⟨ws, hws⟩ := inRange_writes _ hin
      exact ⟨_, step_of_takeCommand s _ (inRange_rst _ hin) (hws _).1⟩
  obtain ⟨hvalid, hbad⟩ := not_inRange hrst hout
  rcases decodeCommand_cases (nextPins s) with ⟨hone, hdirect⟩ | ⟨-, i, hi, hwf⟩ | ⟨hkind, herror⟩
  · obtain ⟨hcodes, hexec⟩ := exec_setComboDirect_refused _ _ _ _ _ (dropPins s) (hbad _ hdirect)
    have hrefused := step_of_refused s _ hrst ((takeCommand_ok hvalid hdirect _).trans hexec)
    refine ⟨fun hkind => ?_, fun _ => ⟨hone, hcodes, hrefused⟩⟩
    rw [hone] at hkind
    exact absurd hkind (by decide)
  · exact Bool.noConfusion (hwf.symm.trans (hbad i hi))
  · exact ⟨fun _ => step_of_refused s _ hrst (takeCommand_error hvalid herror _), fun hlt => by omega⟩

end Sys2Proof.Machine

/-! PROOFS. The encoder of the frame (R92 to R105): inversion, the parity of every frame, and for each of the five
command operations what it stores, its port value, its frame and its class. -/

namespace Sys2Proof

/-! ### Fields as numbers -/

/-- A word put after another, as the number that the two make (R18). -/
theorem append_eq_ofNat {m n : Nat} (x : BitVec m) (y : BitVec n) :
    x ++ y = BitVec.ofNat (m + n) (2 ^ n * x.toNat + y.toNat) := by
  have hvalue : (x ++ y).toNat = 2 ^ n * x.toNat + y.toNat := by
    rw [BitVec.toNat_append, ← Nat.shiftLeft_add_eq_or_of_lt y.isLt, Nat.shiftLeft_eq, Nat.mul_comm]
  rw [← hvalue, BitVec.ofNat_toNat, BitVec.setWidth_eq]

theorem Params.submodeCstid_toNat (P : Params) : P.submodeCstid.toNat = 1 - P.submodePwm.toNat := by
  rw [Params.submodeCstid]
  cases P.submodePwm <;> rfl

/-! ### The parity of a frame -/

theorem fields_xor_of_checksumOk {F : Frame} (h : checksumOk F = true) :
    field1 F ^^^ field2 F ^^^ field3 F ^^^ field4 F = 0xF := by
  rw [checksumOk, beq_iff_eq] at h
  rw [h, Config.lrcSeed, BitVec.xor_assoc, BitVec.xor_assoc]
  simp

end Sys2Proof

namespace Sys2Proof.Machine

/-- How many of the four fields hold a 1 at bit position `i` (R105 b). -/
def columnOnes (F : Frame) (i : Nat) : Nat :=
  ([field1 F, field2 F, field3 F, field4 F].map fun f => (f.getLsbD i).toNat).sum

theorem columnOnes_eq (F : Frame) (i : Nat) :
    columnOnes F i = ((field1 F).getLsbD i).toNat + ((field2 F).getLsbD i).toNat + ((field3 F).getLsbD i).toNat +
      ((field4 F).getLsbD i).toNat := by
  simp only [columnOnes, List.map_cons, List.map_nil, List.sum_cons, List.sum_nil]
  omega

theorem sum_toNat_of_xor {a b c d : Bool} (h : (a ^^ b ^^ c ^^ d) = true) :
    a.toNat + b.toNat + c.toNat + d.toNat = 1 ∨ a.toNat + b.toNat + c.toNat + d.toNat = 3 := by
  revert a b c d
  decide

/-- The right checksum makes the number of 1s at each bit position odd (R105 b). -/
theorem columnOnes_of_checksumOk {F : Frame} (h : checksumOk F = true) {i : Nat} (hi : i < 4) :
    columnOnes F i = 1 ∨ columnOnes F i = 3 := by
  have hbits := congrArg (BitVec.getLsbD · i) (fields_xor_of_checksumOk h)
  have hones : (0xF#4).getLsbD i = true := (BitVec.getLsbD_allOnes (v := 4)).trans (decide_eq_true hi)
  simp only [BitVec.getLsbD_xor, BitVec.ofNat_eq_ofNat, hones] at hbits
  rw [columnOnes_eq]
  exact sum_toNat_of_xor (by simpa using hbits)

theorem count_true_eq_sum (bs : List Bool) : bs.count true = (bs.map Bool.toNat).sum := by
  induction bs with
  | nil => rfl
  | cons b bs ih => cases b <;> simp [ih, Nat.add_comm]

theorem payloadBits_eq (F : Frame) :
    payloadBits F =
      [F.getLsbD 15, F.getLsbD 14, F.getLsbD 13, F.getLsbD 12, F.getLsbD 11, F.getLsbD 10, F.getLsbD 9, F.getLsbD 8,
        F.getLsbD 7, F.getLsbD 6, F.getLsbD 5, F.getLsbD 4, F.getLsbD 3, F.getLsbD 2, F.getLsbD 1, F.getLsbD 0] := rfl

/-- The 16 bits of a frame, counted position by position. -/
theorem onesIn_eq_columns (F : Frame) :
    onesIn F = columnOnes F 0 + columnOnes F 1 + columnOnes F 2 + columnOnes F 3 := by
  rw [onesIn, count_true_eq_sum, payloadBits_eq]
  simp only [columnOnes_eq, field1, field2, field3, field4, BitVec.getLsbD_extractLsb', Nat.reduceAdd, Nat.reduceLT,
    Nat.ofNat_pos, Nat.one_lt_ofNat, decide_true, Bool.true_and, List.map_cons, List.map_nil, List.sum_cons,
    List.sum_nil]
  omega

theorem onesIn_of_checksumOk {F : Frame} (h : checksumOk F = true) : onesIn F ∈ [4, 6, 8, 10, 12] := by
  have h0 := columnOnes_of_checksumOk h (i := 0) (by decide)
  have h1 := columnOnes_of_checksumOk h (i := 1) (by decide)
  have h2 := columnOnes_of_checksumOk h (i := 2) (by decide)
  have h3 := columnOnes_of_checksumOk h (i := 3) (by decide)
  simp only [onesIn_eq_columns, List.mem_cons, List.not_mem_nil, or_false]
  omega

/-! ### The frame as a function of the toggle -/

/-- The toggle is the top bit of field 1 (R65). -/
theorem f1Of_not_toggle (v : Cmd) (tg : Bool) (c : ChannelId) : f1Of v (!tg) c = f1Of v tg c ^^^ 8#4 := by
  have hbit : bit (!tg) = bit tg ^^^ 1#1 := by cases tg <;> rfl
  have hword : (8#4 : Nibble) = 1#1 ++ 0#1 ++ 0#2 := rfl
  rw [f1Of, f1Of, hword, BitVec.xor_append, BitVec.xor_append, hbit, BitVec.xor_zero, BitVec.xor_zero]

theorem checksum_xor_field1 (x f1 f2 f3 : Nibble) : checksum (f1 ^^^ x) f2 f3 = checksum f1 f2 f3 ^^^ x := by
  simp only [checksum]
  ac_rfl

/-- The toggle reaches a frame through field 1 and through the checksum of field 1 (R105 e). -/
theorem encodeFrame_not_toggle (P : Params) (v : Cmd) (tg : Bool) (c : ChannelId) :
    encodeFrame P v (!tg) c = encodeFrame P v tg c ^^^ 0x8008 := by
  have hword : (0x8008 : Frame) = 8#4 ++ 0#4 ++ 0#4 ++ 8#4 := rfl
  rw [hword, encodeFrame, encodeFrame, BitVec.xor_append, BitVec.xor_append, BitVec.xor_append, f1Of_not_toggle,
    checksum_xor_field1, BitVec.xor_zero, BitVec.xor_zero]

/-- Settles O7: (a) to (c) hold of every frame with the right checksum. -/
theorem frameParityFacts : Obligations.FrameParityFacts := by
  intro P v tg c
  obtain ⟨-, -, -, hsum⟩ := (eq_encodeFrame_iff P _ v tg c).mp rfl
  exact ⟨fields_xor_of_checksumOk hsum, fun _ hi => columnOnes_of_checksumOk hsum hi, onesIn_of_checksumOk hsum,
    encodeFrame_not_toggle P v tg c⟩

/-! ### The fields of a command as numbers -/

/-- Field 1 as a number (R65). -/
theorem f1Of_eq_ofNat (v : Cmd) (tg : Bool) (c : ChannelId) :
    f1Of v tg c = BitVec.ofNat 4 (8 * tg.toNat + 4 * (escape v).toNat + c.val) := by
  have htoggle := Bool.toNat_le tg
  have hescape := Bool.toNat_le (escape v)
  have hchannel : c.val < 4 := c.isLt
  rw [f1Of, append_eq_ofNat, append_eq_ofNat]
  simp only [bit, BitVec.toNat_ofBool, BitVec.toNat_ofNat]
  congr 1
  omega

/-- Field 2 of the two single-output commands as a number (R66, R67). -/
theorem singleField_eq_ofNat (submode : Bool) (sel : BitVec 1) :
    bit Config.addressBit ++ 1#1 ++ bit submode ++ sel =
      BitVec.ofNat 4 (4 + 2 * submode.toNat + sel.toNat) := by
  have hsubmode := Bool.toNat_le submode
  have hmode : bit Config.addressBit ++ 1#1 = 1#2 := rfl
  rw [hmode, append_eq_ofNat, append_eq_ofNat]
  simp only [bit, BitVec.toNat_ofBool, BitVec.toNat_ofNat]
  congr 1
  omega

/-- The frame of a command, its first field written as a number (R65, R102, R103). -/
theorem encodeFrame_eq (P : Params) (v : Cmd) (tg : Bool) (c : ChannelId) :
    encodeFrame P v tg c =
      let f1 : Nibble := BitVec.ofNat 4 (8 * tg.toNat + 4 * (escape v).toNat + c.val)
      f1 ++ f2Of P v ++ f3Of v ++ (0xF#4 ^^^ f1 ^^^ f2Of P v ^^^ f3Of v) := by
  rw [encodeFrame, f1Of_eq_ofNat]
  rfl

/-! ### Inversion -/

theorem invertPwm_toNat (x : Nibble) : (invertPwm x).toNat = (16 - x.toNat) % 16 := by
  rw [invertPwm, BitVec.toNat_ofNat, Nat.mod_mod]

/-- The inversion of a PWM code is its negation in 4 bits (R92). -/
theorem invertPwm_eq_neg (x : Nibble) : invertPwm x = -x :=
  BitVec.eq_of_toNat_eq ((invertPwm_toNat x).trans (BitVec.toNat_neg x).symm)

theorem invertPwm_eq_self_iff (x : Nibble) : invertPwm x = x ↔ x = 0 ∨ x = 8 := by
  rw [invertPwm_eq_neg]
  bv_omega

/-- Forward `k` and backward `k` change places (R92). -/
theorem invertPwm_ofNat {k : Nat} (hpos : 1 ≤ k) (hlt : k ≤ 15) :
    invertPwm (BitVec.ofNat 4 k) = BitVec.ofNat 4 (16 - k) := by
  apply BitVec.eq_of_toNat_eq
  rw [invertPwm_toNat, BitVec.toNat_ofNat, BitVec.toNat_ofNat]
  omega

/-- The inversion of a ComboDirect code exchanges its bits (R93). -/
theorem invertDirect_append (x y : BitVec 1) : invertDirect (x ++ y) = y ++ x := by
  rw [invertDirect, BitVec.extractLsb'_append_eq_right, BitVec.extractLsb'_append_eq_left]

theorem invertDirect_invertDirect (x : DirectCode) : invertDirect (invertDirect x) = x := by
  have hswap : invertDirect x = x.extractLsb' 0 1 ++ x.extractLsb' 1 1 := rfl
  rw [hswap, invertDirect_append]
  exact BitVec.extractLsb'_append_extractLsb'

theorem invertDirect_eq_self_iff (x : DirectCode) : invertDirect x = x ↔ x = 0 ∨ x = 3 := by
  revert x
  decide

/-! ### The command that operands in range name -/

theorem extendedCmd_toNat (d : Nibble) : extendedCmd d.toNat = some (.extended d) := by
  rw [extendedCmd, nibbleOf_toNat, Option.map_some]

theorem comboDirectCmd_toNat (a b : DirectCode) (ia ib : Bool) :
    comboDirectCmd a.toNat ia b.toNat ib = some (.comboDirect (directOperand ia a) (directOperand ib b)) := by
  rw [comboDirectCmd, directOf_toNat, directOf_toNat]

theorem comboPwmCmd_toNat (a b : Nibble) (ia ib : Bool) :
    comboPwmCmd a.toNat ia b.toNat ib = some (.comboPwm (pwmOperand ia a) (pwmOperand ib b)) := by
  rw [comboPwmCmd, nibbleOf_toNat, nibbleOf_toNat]

theorem singlePwmCmd_toNat (sel : BitVec 1) (p : Nibble) (inv : Bool) :
    singlePwmCmd sel.toNat p.toNat inv = some (.singlePwm sel (pwmOperand inv p)) := by
  rw [singlePwmCmd, selectOf_toNat, nibbleOf_toNat]

theorem singleCstidCmd_toNat (sel : BitVec 1) (d : Nibble) :
    singleCstidCmd sel.toNat d.toNat = some (.singleCstid sel d) := by
  rw [singleCstidCmd, selectOf_toNat, nibbleOf_toNat]

/-- Settles O6: a PWM code is negated, a ComboDirect code has its bits exchanged, and each flag is an `if` on its own
code. -/
theorem inversionLaws : Obligations.InversionLaws := by
  refine ⟨fun x => ⟨?_, invertPwm_eq_self_iff x, invertPwm_toNat x, rfl, rfl⟩, fun k hpos hle => ⟨?_, ?_⟩,
    fun x => ⟨invertDirect_invertDirect x, invertDirect_eq_self_iff x, rfl, rfl⟩, rfl, rfl, comboDirectCmd_toNat,
    comboPwmCmd_toNat, extendedCmd_toNat, singleCstidCmd_toNat⟩
  · rw [invertPwm_eq_neg, invertPwm_eq_neg, BitVec.neg_neg]
  · exact invertPwm_ofNat hpos (by omega)
  · rw [invertPwm_ofNat (by omega) (by omega), Nat.sub_sub_self (by omega)]

/-! ### The command operations -/

/-- An operation whose operands name a channel and a command takes that command in. -/
theorem issue_some (P : Params) (c : ChannelId) (v : Cmd) (s : State) :
    issue P c.val (some v) s = .next (intake P c v s) := by
  simp only [issue, channelOf_val]

/-- What an intake stores, as a whole next state: the entry at rest (R131, R159), the shadow entry in a round (R165). -/
theorem exec_stores (i : Instr) (s : State) {c : ChannelId} {w : Option Cmd} {v : Cmd}
    (hexec : exec i s = issue Config.params c.val w s) (hcmd : w = some v) :
    (s.phase = .idle → exec i s = .next { s with
      chan := s.chan.set c
        { armed := true, cmd := v, toggle := (entry s c).toggle
          sends := if Config.params.setCmdResetsRepeat then 0 else (entry s c).sends } }) ∧
    (s.phase ≠ .idle → exec i s = .next { s with shadow := s.shadow.set c (some v) }) := by
  rw [hexec, hcmd, issue_some]
  refine ⟨fun hidle => ?_, fun hbusy => ?_⟩
  · rw [intake_idle _ c v s hidle]
    rfl
  · rw [intake_busy _ c v s hbusy]
    rfl

/-- The port value of a command whose code operands are `a` and `b` (R80, R82). -/
theorem commandPins_toNat (kind : BitVec 3) (c : ChannelId) (a b : Nibble) (ia ib : Bool) (sel : BitVec 1) :
    commandPins kind c.val a.toNat b.toNat ia ib sel.toNat = { Pins.idle with
      cmdValid := true, cmdKind := kind, cmdChannel := BitVec.ofNat 2 c.val, cmdA := a, cmdB := b, cmdInvA := ia,
      cmdInvB := ib, cmdSel := sel } := by
  simp only [commandPins, BitVec.ofNat_toNat, BitVec.setWidth_eq]

/-- The port carries a ComboDirect code in its signal's low bits, the upper ones 0 (R80). -/
theorem toNat_zero_append (a : DirectCode) : (0#2 ++ a).toNat = a.toNat := by
  rw [append_eq_ofNat, BitVec.toNat_ofNat]
  have ha : a.toNat < 4 := a.isLt
  simp only [BitVec.toNat_zero]
  omega

/-- Settles O8: a nibble operand is stored, put on the port and sent as it stands. -/
theorem setExtendedStoresAndSends : Obligations.SetExtendedStoresAndSends := by
  intro c d s
  obtain ⟨hidle, hbusy⟩ := exec_stores (.setExtended c.val d.toNat) s rfl (extendedCmd_toNat d)
  refine ⟨hidle, hbusy, fun P => ?_, fun P tg => encodeFrame_eq P (.extended d) tg c, fun P => ⟨rfl, rfl⟩⟩
  exact congrArg Code.port (commandPins_toNat 0 c d 0 false false 0)

/-- Settles O9: each flag acts on its own code, and the port carries the two codes as given, in four bits. -/
theorem setComboDirectStoresAndSends : Obligations.SetComboDirectStoresAndSends := by
  intro c a b ia ib s a' b'
  obtain ⟨hidle, hbusy⟩ :=
    exec_stores (.setComboDirect c.val a.toNat ia b.toNat ib) s rfl (comboDirectCmd_toNat a b ia ib)
  refine ⟨hidle, hbusy, fun P => ?_, fun P tg => encodeFrame_eq P (.comboDirect a' b') tg c, fun P => ⟨rfl, rfl⟩⟩
  rw [← toNat_zero_append a, ← toNat_zero_append b]
  exact congrArg Code.port (commandPins_toNat 1 c (0#2 ++ a) (0#2 ++ b) ia ib 0)

/-- Settles O10: the two stored codes are fields 3 and 2 of an escape frame. -/
theorem setComboPwmStoresAndSends : Obligations.SetComboPwmStoresAndSends := by
  intro c a b ia ib s a' b'
  obtain ⟨hidle, hbusy⟩ := exec_stores (.setComboPwm c.val a.toNat ia b.toNat ib) s rfl (comboPwmCmd_toNat a b ia ib)
  refine ⟨hidle, hbusy, fun P => ?_, fun P tg => encodeFrame_eq P (.comboPwm a' b') tg c, fun P => ⟨rfl, rfl⟩⟩
  exact congrArg Code.port (commandPins_toNat 2 c a b ia ib 0)

/-- Settles O11: field 2 carries the sub-mode and the output select. -/
theorem setSinglePwmStoresAndSends : Obligations.SetSinglePwmStoresAndSends := by
  intro c sel p inv s p'
  obtain ⟨hidle, hbusy⟩ := exec_stores (.setSinglePwm c.val sel.toNat p.toNat inv) s rfl (singlePwmCmd_toNat sel p inv)
  refine ⟨hidle, hbusy, fun P => ?_, fun P tg => ?_, fun P => ⟨rfl, rfl⟩⟩
  · exact congrArg Code.port (commandPins_toNat 3 c p 0 inv false sel)
  · rw [encodeFrame_eq, f2Of, singleField_eq_ofNat]
    rfl

/-- Settles O12: its sub-mode is the complement of that of SINGLE_PWM, and its class is a test for two codes. -/
theorem setSingleCstidStoresAndSends : Obligations.SetSingleCstidStoresAndSends := by
  intro c sel d s
  obtain ⟨hidle, hbusy⟩ := exec_stores (.setSingleCstid c.val sel.toNat d.toNat) s rfl (singleCstidCmd_toNat sel d)
  refine ⟨hidle, hbusy, fun P => ?_, fun P tg => ?_, fun P => ⟨rfl, ?_⟩⟩
  · exact congrArg Code.port (commandPins_toNat 4 c d 0 false false sel)
  · rw [encodeFrame_eq, f2Of, singleField_eq_ofNat, Params.submodeCstid_toNat]
    rfl
  · rw [isContinuous, Bool.or_eq_true, beq_iff_eq, beq_iff_eq]

end Sys2Proof.Machine

/-! PROOFS. The serializer's slot (R110 to R125): its waveform is the closed form, its symbols fit, and the clock edges
of a slot run each of its operations (R161, R162). -/

namespace Sys2Proof.Machine

/-! ### The slot as one operation -/

theorem sendSlot_eq_fields (P : Params) (fr : Option Frame) (s : State) :
    sendSlot P fr s = { s with t := 16000, line := (sendSlot P fr s).line } := by
  obtain ⟨hstate, -, -, -⟩ := emitLevels_spec (slotLevels P fr) { s with t := 0 }
  have hend : (0 : SlotTime) + BitVec.ofNat 14 16000 = 16000 := BitVec.zero_add _
  rwa [← sendSlot_eq, slotLevels_length, hend] at hstate

theorem sendSlot_lineLength (P : Params) (fr : Option Frame) (s : State) :
    lineLength (sendSlot P fr s).line = lineLength s.line + 16000 := by
  obtain ⟨-, hlength, -, -⟩ := emitLevels_spec (slotLevels P fr) { s with t := 0 }
  rwa [← sendSlot_eq, slotLevels_length] at hlength

theorem levelAt_sendSlot_old (P : Params) (fr : Option Frame) (s : State) (τ : Nat) (h : τ < lineLength s.line) :
    levelAt (sendSlot P fr s).line τ = levelAt s.line τ := by
  rw [sendSlot_eq]
  exact levelAt_emitLevels_old _ { s with t := 0 } τ h

theorem levelAt_sendSlot_new (P : Params) (fr : Option Frame) (s : State) (τ : Nat) :
    levelAt (sendSlot P fr s).line (lineLength s.line + τ) = slotLevel P fr τ := by
  rw [sendSlot_eq, ← slotLevels_getD]
  exact levelAt_emitLevels_new _ { s with t := 0 } τ

/-- Settles O26: a slot emits the 16000 levels of its closed form. -/
theorem slotWaveformIsTheClosedForm : Obligations.SlotWaveformIsTheClosedForm := fun P fr s =>
  ⟨sendSlot_eq_fields P fr s, sendSlot_lineLength P fr s, levelAt_sendSlot_old P fr s,
    fun τ _ => levelAt_sendSlot_new P fr s τ⟩

/-! ### Where the symbols of a frame stand in its slot -/

theorem symOffset_eq_length (P : Params) (F : Frame) (j : Nat) :
    symOffset P F j = (((symbols F).take j).flatMap (symbolLevels P)).length := by
  simp only [List.length_flatMap, symbolLevels_length, symOffset]

/-- A message ends before its slot does, so that every slot has a pad (R122). -/
theorem symOffset_end_lt (P : Params) (F : Frame) : symOffset P F 18 < 16000 := by
  have hmark := P.markTu_le
  have hones := onesIn_le F
  rw [symOffset_end]
  omega

/-- Settles O25: the length of a message, of which every bit that is 1 adds 286 tu. -/
theorem symbolsFitIntoASlot : Obligations.SymbolsFitIntoASlot :=
  fun P F => ⟨symOffset_end P F, onesIn_le F, symOffset_end_le P F⟩

/-- The levels of a message around its `j`-th symbol. -/
theorem flatMap_symbolLevels_split (P : Params) (F : Frame) (j : Nat) (y : Symbol) (h : (symbols F)[j]? = some y) :
    (symbols F).flatMap (symbolLevels P) = ((symbols F).take j).flatMap (symbolLevels P) ++
      (symbolLevels P y ++ ((symbols F).drop (j + 1)).flatMap (symbolLevels P)) := by
  obtain ⟨hj, rfl⟩ := List.getElem?_eq_some_iff.mp h
  rw [← List.flatMap_cons, ← List.drop_eq_getElem_cons hj, ← List.flatMap_append, List.take_append_drop]

/-- A symbol of a frame ends inside the slot. -/
theorem symOffset_add_symTu_lt (P : Params) (F : Frame) (j : Nat) (y : Symbol) (h : (symbols F)[j]? = some y) :
    symOffset P F j + symTu P y < 16000 := by
  have hlength := congrArg List.length (flatMap_symbolLevels_split P F j y h)
  rw [flatMap_symbolLevels_length, List.length_append, List.length_append, symbolLevels_length,
    ← symOffset_eq_length] at hlength
  have hend := symOffset_end_lt P F
  omega

theorem markTu_le_symTu (P : Params) (y : Symbol) : P.markTu ≤ symTu P y := Nat.le_add_right _ _

/-- While a symbol of a frame lasts, the slot shows that symbol's levels. -/
theorem wave_in_symbol (P : Params) (F : Frame) (j : Nat) (y : Symbol) (h : (symbols F)[j]? = some y) (k : Nat)
    (hk : k < symTu P y) : wave P F (symOffset P F j + k) = (symbolLevels P y).getD k false := by
  rw [wave_eq, ← flatMap_symbolLevels_getD, flatMap_symbolLevels_split P F j y h, symOffset_eq_length,
    List.getD_append_right _ _ _ _ (Nat.le_add_right _ _), Nat.add_sub_cancel_left,
    List.getD_append _ _ _ _ (by rwa [symbolLevels_length])]

/-- After the last symbol of a frame its slot is low. -/
theorem wave_in_pad (P : Params) (F : Frame) (k : Nat) : wave P F (symOffset P F 18 + k) = false := by
  rw [wave_eq, ← flatMap_symbolLevels_getD, ← flatMap_symbolLevels_length,
    List.getD_eq_default _ _ (Nat.le_add_right _ _)]

/-! ### The high runs of a slot -/

theorem wave_iff (P : Params) (F : Frame) (τ : Nat) :
    wave P F τ = true ↔ ∃ j < 18, symOffset P F j ≤ τ ∧ τ < symOffset P F j + P.markTu ∧
      (τ - symOffset P F j) % 26 < 13 := by
  simp only [wave, List.any_eq_true, List.mem_range, decide_eq_true_eq]
  rfl

/-- A high tu lies in the mark of one of the symbols. -/
theorem exists_symbol_of_wave (P : Params) (F : Frame) (τ : Nat) (h : wave P F τ = true) :
    ∃ j y k, (symbols F)[j]? = some y ∧ τ = symOffset P F j + k ∧ k < P.markTu ∧ k % 26 < 13 := by
  obtain ⟨j, hj, hstart, hend, hhigh⟩ := (wave_iff P F τ).mp h
  exact ⟨j, _, τ - symOffset P F j, List.getElem?_eq_getElem (by rwa [symbols_length]), by omega, by omega, hhigh⟩

/-- In the mark of a symbol the slot is high in the first half of every carrier cycle. -/
theorem wave_in_mark (P : Params) (F : Frame) (j : Nat) (y : Symbol) (h : (symbols F)[j]? = some y) (k : Nat)
    (hk : k < P.markTu) : wave P F (symOffset P F j + k) = decide (k % 26 < 13) := by
  rw [wave_in_symbol P F j y h k (hk.trans_le (markTu_le_symTu P y)), symbolLevels_getD, decide_eq_true hk,
    Bool.true_and]

theorem symbolLevels_count_true (P : Params) (y : Symbol) : (symbolLevels P y).count true = 13 * P.markCycles := by
  have hcycle : cycleLevels.count true = 13 := by decide
  simp [symbolLevels, markLevels, List.count_flatten, List.count_replicate, hcycle, Nat.mul_comm]

theorem slotLevels_count_true (P : Params) (F : Frame) :
    (slotLevels P (some F)).count true = 13 * (18 * P.markCycles) := by
  have hsymbols : ((symbols F).map (List.count true ∘ symbolLevels P)).sum = 18 * (13 * P.markCycles) := by
    simp only [Function.comp_def, symbolLevels_count_true, List.map_const', List.sum_replicate, symbols_length,
      smul_eq_mul]
  have hlows : (List.replicate (Config.msgTu - symOffset P F 18) false).count true = 0 :=
    List.count_eq_zero.mpr fun h => Bool.noConfusion (List.eq_of_mem_replicate h)
  rw [slotLevels, List.count_append, List.count_flatMap, hlows, hsymbols, Nat.add_zero, Nat.mul_left_comm]

/-- The high times among any are as many as the high levels of the slot at them. -/
theorem countP_wave (P : Params) (F : Frame) (τs : List Nat) :
    τs.countP (fun τ => wave P F τ) = (τs.map (slotLevel P (some F))).count true := by
  rw [List.count, List.countP_map]
  exact List.countP_congr fun τ _ => by simp [slotLevel]

/-- Where the line rises a carrier cycle begins. -/
theorem exists_cycle_of_rise (P : Params) (F : Frame) (τ : Nat) (h : wave P F τ = true)
    (hrise : τ = 0 ∨ wave P F (τ - 1) = false) :
    ∃ j y k, (symbols F)[j]? = some y ∧ τ = symOffset P F j + k ∧ k + 26 ≤ P.markTu ∧ k % 26 = 0 := by
  obtain ⟨j, y, k, hy, rfl, hk, hhigh⟩ := exists_symbol_of_wave P F τ h
  have hstart : k % 26 = 0 := by
    by_contra hne
    have hbefore : wave P F (symOffset P F j + (k - 1)) = true := by
      rw [wave_in_mark P F j y hy _ (by omega)]
      exact decide_eq_true (by omega)
    rw [← Nat.add_sub_assoc (by omega)] at hbefore
    rcases hrise with hzero | hlow
    · omega
    · exact Bool.false_ne_true (hlow.symm.trans hbefore)
  rw [Params.markTu_eq] at hk
  exact ⟨j, y, k, hy, rfl, by rw [Params.markTu_eq]; omega, hstart⟩

/-- Settles O27: the high tu are those of the 18 marks, and a rise is the start of a carrier cycle, which the mark holds
as a whole. -/
theorem highRunsOfASlot : Obligations.HighRunsOfASlot := by
  refine fun P F => ⟨?_, fun τ _ h hrise => ?_⟩
  · rw [countP_wave, List.range_eq_range', ← slotLevels_eq, slotLevels_count_true]
  · obtain ⟨j, y, k, hy, rfl, hk, hstart⟩ := exists_cycle_of_rise P F τ h hrise
    refine ⟨fun n hn => ?_, ?_⟩
    · rw [Nat.add_assoc, wave_in_mark P F j y hy _ (by omega)]
      exact decide_eq_true (by omega)
    · rw [Nat.add_assoc, wave_in_mark P F j y hy _ (by omega)]
      exact decide_eq_false (by omega)

/-! ### The pad and the slot of an Idle channel -/

theorem exec_pad (s : State) : exec .pad s = .next (emitLevels (List.replicate (16000 - s.t.toNat) false) s) :=
  congrArg Host.Outcome.next (emit_eq_emitLevels false (16000 - s.t.toNat) s)

theorem exec_idleSlot (s : State) : exec .idleSlot s = .next (sendSlot Config.params none s) := rfl

/-- Settles O24: the pad emits nothing when no time of the slot is left. -/
theorem padIsEmptyPastTheSlotEnd : Obligations.PadIsEmptyPastTheSlotEnd := by
  intro s h
  rw [exec_pad, Nat.sub_eq_zero_of_le h]
  rfl

/-- Settles O23: the pad emits a low level for each tu that is left of the slot; the slot of an Idle channel is a slot
whose level is 0 throughout. -/
theorem padAndIdleSlotHoldTheLineLow : Obligations.PadAndIdleSlotHoldTheLineLow := by
  refine fun s => ⟨fun ht => ?_, _, exec_idleSlot s, sendSlot_eq_fields _ none s, sendSlot_lineLength _ none s,
    levelAt_sendSlot_old _ none s, fun τ hτ => ?_⟩
  · obtain ⟨hstate, hlength, -, -⟩ := emitLevels_spec (List.replicate (16000 - s.t.toNat) false) s
    rw [List.length_replicate] at hstate hlength
    have hend : s.t + BitVec.ofNat 14 (16000 - s.t.toNat) = 16000 := by bv_omega
    rw [hend] at hstate
    refine ⟨_, exec_pad s, hstate, hlength, levelAt_emitLevels_old _ s, fun τ hτ => ?_⟩
    obtain ⟨k, rfl⟩ := Nat.exists_eq_add_of_le hτ
    rw [levelAt_emitLevels_new]
    exact getD_append_lows [] _ k
  · obtain ⟨k, rfl⟩ := Nat.exists_eq_add_of_le hτ
    exact levelAt_sendSlot_new _ none s k

/-! ### The frame of the micro-operations -/

/-- Every micro-operation emits levels, `IDLE_SLOT` after it has set the slot's clock to 0 (R110). -/
theorem exec_micro_emits (i : Instr) (s : State) (hi : i ∈ [.mark, .startStop, .bit1, .bit0, .pad, .idleSlot]) :
    ∃ x bs, exec i s = .next (emitLevels bs { s with t := x }) := by
  simp only [List.mem_cons, List.not_mem_nil, or_false] at hi
  rcases hi with rfl | rfl | rfl | rfl | rfl | rfl
  · exact ⟨s.t, _, exec_mark s⟩
  · exact ⟨s.t, _, exec_symbolOp .startStop s⟩
  · exact ⟨s.t, _, exec_symbolOp .one s⟩
  · exact ⟨s.t, _, exec_symbolOp .zero s⟩
  · exact ⟨s.t, _, exec_pad s⟩
  · exact ⟨0, _, congrArg Host.Outcome.next (sendSlot_eq Config.params none s)⟩

/-- Settles O44: emitting levels changes only the slot's clock and the line. -/
theorem microOperationsTouchOnlyClockAndLine : Obligations.MicroOperationsTouchOnlyClockAndLine := by
  intro i s t hi h
  obtain ⟨x, bs, hexec⟩ := exec_micro_emits i s hi
  obtain rfl := Host.Outcome.next.inj (hexec.symm.trans h)
  obtain ⟨hstate, -, -, -⟩ := emitLevels_spec bs { s with t := x }
  rw [hstate]

/-! ### Quiet edges in a slot -/

theorem quiet_inRange (p : Pins) (h : quiet p = true) : inRange p = true := by
  simp only [quiet, Bool.and_eq_true] at h
  simp [inRange, h]

theorem quiet_writesOf (p : Pins) (h : quiet p = true) : writesOf p = [] := by
  simp only [quiet, Bool.and_eq_true, Bool.not_eq_true'] at h
  simp [writesOf, h]

/-- As long as a round goes on, quiet edges are the sequencer's actions and nothing else. -/
theorem run_quiet (ps rest : List Pins) (s : State) (hinputs : s.inputs = ps ++ rest)
    (hquiet : ∀ p ∈ ps, quiet p = true)
    (hbusy : ∀ n < ps.length, ((tick Config.params false)^[n] s).phase ≠ .idle) :
    Host.Core.run Sys2Proof.core ps.length s = .next ((tick Config.params false)^[ps.length] (setInputs rest s)) := by
  obtain ⟨ws, hws, hrun⟩ := run_busy ps rest s (fun p hp => quiet_inRange p (hquiet p hp)) hbusy
  have hnone : ps.flatMap writesOf = [] := List.flatMap_eq_nil_iff.mpr fun p hp => quiet_writesOf p (hquiet p hp)
  have hid : ∀ u, intakes Config.params ws u = u := fun u => by
    have h := hws u
    rw [hnone] at h
    exact (Host.Outcome.next.inj h).symm
  have hsame : setInputs (ps ++ rest) s = s := by rw [← hinputs]; rfl
  rw [hsame, hid] at hrun
  rw [hrun]
  exact congrArg _ (Function.Commute.iterate_left (fun u => tick_setInputs _ false rest u) ps.length s).symm

/-- A slot is not at rest before its last edge. -/
theorem iterate_tick_slot_busy (P : Params) (s : State) (k : Nat) (h : s.phase = .slot) (ht : s.t.toNat + k ≤ 16000)
    (n : Nat) (hn : n < k) : ((tick P false)^[n] s).phase ≠ .idle := by
  obtain ⟨hstate, -, -, -⟩ := emitLevels_spec ((List.range' s.t.toNat n).map (slotLevel P s.frame)) s
  rw [iterate_tick_slot P false n s h (by omega), hstate]
  simp [h]

/-- Quiet edges inside a slot emit as many tu of its waveform (R161). -/
theorem run_quiet_slot (ps rest : List Pins) (s : State) (h : s.phase = .slot) (hinputs : s.inputs = ps ++ rest)
    (hquiet : ∀ p ∈ ps, quiet p = true) (ht : s.t.toNat + ps.length < 16000) :
    Host.Core.run Sys2Proof.core ps.length s = .next
      (emitLevels ((List.range' s.t.toNat ps.length).map (slotLevel Config.params s.frame)) (setInputs rest s)) := by
  rw [run_quiet ps rest s hinputs hquiet (iterate_tick_slot_busy _ s _ h ht.le)]
  exact congrArg _ (iterate_tick_slot Config.params false ps.length (setInputs rest s) h (Nat.le_of_lt_succ ht))

/-- Quiet edges up to the end of a slot emit the rest of its waveform, and the last of them is the slot boundary
(R162). -/
theorem run_quiet_slot_end (ps rest : List Pins) (s : State) (h : s.phase = .slot) (hinputs : s.inputs = ps ++ rest)
    (hquiet : ∀ p ∈ ps, quiet p = true) (hpos : 0 < ps.length) (ht : s.t.toNat + ps.length = 16000) :
    Host.Core.run Sys2Proof.core ps.length s = .next (slotBoundary Config.params
      (emitLevels ((List.range' s.t.toNat ps.length).map (slotLevel Config.params s.frame)) (setInputs rest s))) := by
  rw [run_quiet ps rest s hinputs hquiet (iterate_tick_slot_busy _ s _ h ht.le)]
  exact congrArg _ (iterate_tick_slot_end Config.params false ps.length (setInputs rest s) h hpos ht)

/-! ### The edges of a slot run its operations -/

/-- Levels that the slot shows one after another from a time on are its waveform from that time. -/
theorem map_range'_slotLevel (P : Params) (fr : Option Frame) (a : Nat) (bs : List Bool)
    (h : ∀ k < bs.length, slotLevel P fr (a + k) = bs.getD k false) :
    (List.range' a bs.length).map (slotLevel P fr) = bs := by
  refine List.ext_getElem (by rw [List.length_map, List.length_range']) fun k _ hk => ?_
  rw [← List.getD_eq_getElem bs false hk, ← h k hk]
  simp

/-- Settles O45: the edges show the levels of the symbol, which the operation emits. -/
theorem slotEdgesRunTheSymbol : Obligations.SlotEdgesRunTheSymbol := by
  intro s F j y ps rest hphase hframe hy ht hinputs hlength hquiet
  have hin := symOffset_add_symTu_lt Config.params F j y hy
  have hlevels := map_range'_slotLevel Config.params (some F) (symOffset Config.params F j)
    (symbolLevels Config.params y) fun k hk =>
      wave_in_symbol Config.params F j y hy k (symbolLevels_length Config.params y ▸ hk)
  rw [symbolLevels_length] at hlevels
  refine ⟨_, exec_symbolOp y (setInputs rest s), ?_⟩
  rw [run_quiet_slot ps rest s hphase hinputs hquiet (by omega), ht, hlength, hframe, hlevels]

/-- From the start of a symbol, `MARK_TU` quiet edges run `MARK` (R112, R161). -/
theorem run_quiet_mark (s : State) (F : Frame) (j : Nat) (ps rest : List Pins) (hphase : s.phase = .slot)
    (hinputs : s.inputs = ps ++ rest) (hquiet : ∀ p ∈ ps, quiet p = true) (hframe : s.frame = some F) (hj : j < 18)
    (ht : s.t.toNat = symOffset Config.params F j) (hlength : ps.length = Config.params.markTu) :
    Host.Core.run Sys2Proof.core ps.length s =
      .next (emitLevels (markLevels Config.params) (setInputs rest s)) := by
  have hy := List.getElem?_eq_getElem (l := symbols F) (i := j) (by rwa [symbols_length])
  have hin := symOffset_add_symTu_lt Config.params F j _ hy
  have hmark := markTu_le_symTu Config.params (symbols F)[j]
  have hlevels := map_range'_slotLevel Config.params (some F) (symOffset Config.params F j)
    (markLevels Config.params) fun k hk => by
      rw [markLevels_length] at hk
      rw [markLevels_getD, decide_eq_true hk, Bool.true_and]
      exact wave_in_mark Config.params F j _ hy k hk
  rw [markLevels_length] at hlevels
  rw [run_quiet_slot ps rest s hphase hinputs hquiet (by omega), ht, hlength, hframe, hlevels]

/-- A slot that is low from a time on: the quiet edges from there to its end are one low stretch and the boundary. -/
theorem run_quiet_low_end (ps rest : List Pins) (s : State) (h : s.phase = .slot) (hinputs : s.inputs = ps ++ rest)
    (hquiet : ∀ p ∈ ps, quiet p = true) (hpos : 0 < ps.length) (ht : s.t.toNat + ps.length = 16000)
    (hlow : ∀ k, slotLevel Config.params s.frame (s.t.toNat + k) = false) :
    Host.Core.run Sys2Proof.core ps.length s = .next (slotBoundary Config.params
      (emitLevels (List.replicate ps.length false) (setInputs rest s))) := by
  have hlevels := map_range'_slotLevel Config.params s.frame s.t.toNat (List.replicate ps.length false) fun k _ =>
    (hlow k).trans (getD_append_lows [] ps.length k).symm
  rw [List.length_replicate] at hlevels
  rw [run_quiet_slot_end ps rest s h hinputs hquiet hpos ht, hlevels]

/-- Settles O46: `MARK` is the beginning of a symbol; after the last symbol, and in a slot without a frame, the line is
low up to the slot boundary. -/
theorem slotEdgesRunMarkPadAndIdleSlot : Obligations.SlotEdgesRunMarkPadAndIdleSlot := by
  intro s ps rest hphase hinputs hquiet
  refine ⟨fun F j hframe hj ht hlength => ?_, fun F hframe ht hlength => ?_, fun hframe ht hlength => ?_⟩
  · exact ⟨_, exec_mark (setInputs rest s),
      run_quiet_mark s F j ps rest hphase hinputs hquiet hframe hj ht hlength⟩
  · have hend := symOffset_end_lt Config.params F
    have hlow : ∀ k, slotLevel Config.params s.frame (s.t.toNat + k) = false := fun k => by
      rw [hframe, ht]
      exact wave_in_pad Config.params F k
    refine ⟨_, exec_pad (setInputs rest s), ?_⟩
    rw [run_quiet_low_end ps rest s hphase hinputs hquiet (by omega) (by omega) hlow, hlength]
    rfl
  · have hstart : s.t.toNat = 0 := by rw [ht]; rfl
    have hlow : ∀ k, slotLevel Config.params s.frame (s.t.toNat + k) = false := fun k => by
      rw [hframe]
      rfl
    have hzero : { setInputs rest s with t := 0 } = setInputs rest s := by rw [← ht]; rfl
    refine ⟨_, exec_idleSlot (setInputs rest s), ?_⟩
    rw [run_quiet_low_end ps rest s hphase hinputs hquiet (by omega) (by omega) hlow, hlength, sendSlot_eq, hzero]
    rfl

end Sys2Proof.Machine

/-! PROOFS. The state of a channel over many rounds (R131 to R142): the command write, the advance, and how the two
classes of commands run: five rounds close a repeat-limited one, a continuous one goes on for ever. -/

namespace Sys2Proof.Machine

/-! ### The write and the advance of one entry -/

/-- Settles O16: the write is that of the one entry, spelled out. -/
theorem commandWriteRule : Obligations.CommandWriteRule := fun _ _ _ _ => rfl

theorem advanceEntry_idle (P : Params) {e : ChannelState} (hidle : e.armed = false) : advanceEntry P e = e := by
  simp [advanceEntry, hidle]

theorem advanceEntry_continuous (P : Params) {e : ChannelState} (hcont : isContinuous P e.cmd = true) :
    advanceEntry P e = e := by
  simp [advanceEntry, hcont]

theorem advanceEntry_fifth (P : Params) {e : ChannelState} (harmed : e.armed = true)
    (hlimited : isContinuous P e.cmd = false) (hsends : e.sends.toNat = 4) :
    advanceEntry P e = { e with armed := false, toggle := !e.toggle, sends := 0 } := by
  simp [advanceEntry, harmed, hlimited, hsends, Config.repeatQuota]

theorem advanceEntry_counts (P : Params) {e : ChannelState} (harmed : e.armed = true)
    (hlimited : isContinuous P e.cmd = false) (hsends : e.sends.toNat ≠ 4) :
    advanceEntry P e = { e with sends := BitVec.ofNat 3 (e.sends.toNat + 1) } := by
  simp [advanceEntry, harmed, hlimited, hsends, Config.repeatQuota]

/-- An advance that keeps its entry keeps the whole state. -/
theorem advance_eq_self (P : Params) (c : ChannelId) (s : State) (h : advanceEntry P (entry s c) = entry s c) :
    advance P c s = s := by
  rw [advance, h, setChan_entry]

/-- Settles O17: the four cases of the entry's advance, put back into the state. -/
theorem advanceRule : Obligations.AdvanceRule := by
  intro P c s
  refine ⟨fun hidle => advance_eq_self P c s (advanceEntry_idle P hidle),
    fun _ hcont => advance_eq_self P c s (advanceEntry_continuous P hcont),
    fun harmed hlimited hsends => ?_, fun harmed hlimited hsends => ?_⟩
  · rw [advance, advanceEntry_fifth P harmed hlimited hsends]
    rfl
  · rw [advance, advanceEntry_counts P harmed hlimited (Nat.ne_of_lt hsends), harmed, BitVec.ofNat_add,
      BitVec.ofNat_toNat, BitVec.setWidth_eq]
    rfl

/-! ### Many advances of one entry -/

theorem iterate_advanceEntry_idle (P : Params) {e : ChannelState} (hidle : e.armed = false) (k : Nat) :
    (advanceEntry P)^[k] e = e :=
  Function.iterate_fixed (advanceEntry_idle P hidle) k

theorem iterate_advanceEntry_continuous (P : Params) {e : ChannelState} (hcont : isContinuous P e.cmd = true)
    (k : Nat) : (advanceEntry P)^[k] e = e :=
  Function.iterate_fixed (advanceEntry_continuous P hcont) k

/-- The first four advances of a repeat-limited command only count (R139 (a)). -/
theorem iterate_advanceEntry_counts (P : Params) {e : ChannelState} (harmed : e.armed = true)
    (hlimited : isContinuous P e.cmd = false) (hzero : e.sends = 0) (k : Nat) (hk : k ≤ 4) :
    (advanceEntry P)^[k] e = { e with sends := BitVec.ofNat 3 k } := by
  induction k with
  | zero => exact congrArg (fun n => { e with sends := n }) hzero
  | succ k ih =>
    have hcount : (BitVec.ofNat 3 k).toNat = k := by
      rw [BitVec.toNat_ofNat]
      omega
    have hnext := advanceEntry_counts P (e := { e with sends := BitVec.ofNat 3 k }) harmed hlimited
      (by rw [hcount]; omega)
    rw [Function.iterate_succ_apply', ih (Nat.le_of_succ_le hk), hnext, hcount]

/-- The fifth advance closes a repeat-limited command, and no later one changes the entry (R139 (c), (d)). -/
theorem iterate_advanceEntry_closes (P : Params) {e : ChannelState} (harmed : e.armed = true)
    (hlimited : isContinuous P e.cmd = false) (hzero : e.sends = 0) (k : Nat) (hk : 5 ≤ k) :
    (advanceEntry P)^[k] e = { e with armed := false, toggle := !e.toggle, sends := 0 } := by
  have hfifth : (advanceEntry P)^[5] e = { e with armed := false, toggle := !e.toggle, sends := 0 } := by
    rw [Function.iterate_succ_apply', iterate_advanceEntry_counts P harmed hlimited hzero 4 (Nat.le_refl 4)]
    exact advanceEntry_fifth P harmed hlimited rfl
  rw [← Nat.sub_add_cancel hk, Function.iterate_add_apply, hfifth]
  exact iterate_advanceEntry_idle P rfl _

/-! ### What rounds make of the entries -/

/-- No round is in progress and no write is held. -/
structure AtRest (s : State) : Prop where
  idle : s.phase = .idle
  noneHeld : ∀ d : ChannelId, held s d = none

/-- A channel's slot advances the entry of that channel alone (R137, R142). -/
theorem sendAndAdvance_entry (P : Params) (c d : ChannelId) (s : State) :
    entry (sendAndAdvance P c s) d = if c = d then advanceEntry P (entry s c) else entry s d := by
  rw [sendAndAdvance, sendSlot_eq_fields, advance_get]
  rfl

theorem sendAndAdvance_held (P : Params) (c d : ChannelId) (s : State) :
    held (sendAndAdvance P c s) d = held s d := by
  rw [sendAndAdvance, sendSlot_eq_fields]
  rfl

theorem roundEnd_entry (P : Params) (s : State) (c : ChannelId) :
    entry (roundEnd P s) c = commitEntry P (held s c) (entry s c) := (roundEnd_spec P s).1 c

theorem roundEnd_atRest (P : Params) (s : State) : AtRest (roundEnd P s) := by
  obtain ⟨-, hheld, hidle, -⟩ := roundEnd_spec P s
  exact ⟨hidle, hheld⟩

/-- A round with nothing held advances every entry once (R137, R151). -/
theorem transmitRound_entry (P : Params) {s : State} (h : AtRest s) (c : ChannelId) :
    entry (transmitRound P s) c = advanceEntry P (entry s c) := by
  have hheld : held { s with line := [] } c = none := h.noneHeld c
  rw [transmitRound, roundEnd_entry]
  simp only [emit_held, emit_entry, sendAndAdvance_held, sendAndAdvance_entry, hheld, commitEntry]
  match c with
  | 0 | 1 | 2 | 3 => rfl

theorem transmitRound_atRest (P : Params) (s : State) : AtRest (transmitRound P s) := roundEnd_atRest P _

/-- From rest `k` rounds complete at rest, and advance every entry `k` times. -/
theorem execAll_rounds (k : Nat) {s : State} (h : AtRest s) :
    ∃ t, execAll (List.replicate k .transmitRound) s = .next t ∧ AtRest t ∧
      ∀ c : ChannelId, entry t c = (advanceEntry Config.params)^[k] (entry s c) := by
  induction k generalizing s with
  | zero => exact ⟨s, rfl, h, fun _ => rfl⟩
  | succ k ih =>
    obtain ⟨t, hexec, hrest, hentry⟩ := ih (transmitRound_atRest Config.params s)
    refine ⟨t, ?_, hrest, fun c => ?_⟩
    · rw [List.replicate_succ, execAll_cons_of_next _ _ _ _ (exec_transmitRound_idle s h.idle), hexec]
    · rw [hentry, transmitRound_entry _ h, Function.iterate_succ_apply]

/-! ### The frames of the rounds to come -/

theorem frameOf_armed (P : Params) {c : ChannelId} {s : State} (h : (entry s c).armed = true) :
    frameOf P c s = some (encodeFrame P (entry s c).cmd (entry s c).toggle c) := if_pos h

theorem frameOf_idle (P : Params) {c : ChannelId} {s : State} (h : (entry s c).armed = false) :
    frameOf P c s = none := if_neg (Bool.eq_false_iff.mp h)

/-- The operation that is to store a command takes in just that command. -/
theorem exec_commandOp (c : ChannelId) (v : Cmd) (s : State) :
    exec (commandOp c v) s = .next (intake Config.params c v s) := by
  rw [← issue_some]
  cases v with
  | extended d => exact congrArg (issue _ _ · s) (extendedCmd_toNat d)
  | comboDirect a b => exact congrArg (issue _ _ · s) (comboDirectCmd_toNat a b false false)
  | comboPwm a b => exact congrArg (issue _ _ · s) (comboPwmCmd_toNat a b false false)
  | singlePwm sel p => exact congrArg (issue _ _ · s) (singlePwmCmd_toNat sel p false)
  | singleCstid sel d => exact congrArg (issue _ _ · s) (singleCstidCmd_toNat sel d)

/-- At rest a command write decides the coming frame: the new command under the toggle that stands (R131, R134). -/
theorem frameOf_commandWrite (P : Params) (c : ChannelId) (v : Cmd) (s : State) :
    frameOf P c (commandWrite P c v s) = some (encodeFrame P v (entry s c).toggle c) := by
  have hentry : entry (commandWrite P c v s) c = writeEntry P v (entry s c) := setChan_get_self c _ s
  rw [frameOf, hentry]
  rfl

/-- Settles O18: the channel's entry after `k` rounds is its `k`-fold advance, which counts up to four and then stays
closed. -/
theorem fiveRoundsCloseACommand : Obligations.FiveRoundsCloseACommand := by
  intro s c hidle hheld harmed hlimited hzero
  refine ⟨fun k hk => ?_, fun k hk => ?_⟩
  · obtain ⟨t, hexec, -, hentry⟩ := execAll_rounds k ⟨hidle, hheld⟩
    have hcount := (hentry c).trans (iterate_advanceEntry_counts Config.params harmed hlimited hzero k hk)
    refine ⟨t, hexec, hcount, ?_⟩
    rw [frameOf_armed _ (by rw [hcount]; exact harmed), hcount]
  · obtain ⟨t, hexec, hrest, hentry⟩ := execAll_rounds k ⟨hidle, hheld⟩
    have hclosed := (hentry c).trans (iterate_advanceEntry_closes Config.params harmed hlimited hzero k hk)
    refine ⟨t, hexec, hclosed, frameOf_idle _ (by rw [hclosed]), fun v => ⟨_, exec_commandOp c v t, ?_⟩⟩
    rw [intake_idle _ c v t hrest.idle, frameOf_commandWrite, hclosed]

/-- Settles O19: no advance changes the entry of a continuous command. -/
theorem continuousCommandIsSentForEver : Obligations.ContinuousCommandIsSentForEver := by
  intro s c k hidle hheld harmed hcont
  obtain ⟨t, hexec, -, hentry⟩ := execAll_rounds k ⟨hidle, hheld⟩
  have hkeep : entry t c = entry s c := (hentry c).trans (iterate_advanceEntry_continuous Config.params hcont k)
  refine ⟨t, hexec, hkeep, ?_⟩
  rw [frameOf_armed _ (by rw [hkeep]; exact harmed), hkeep]

end Sys2Proof.Machine

/-! PROOFS. The round (R150 to R169): the round as one operation, its clock edges one by one, and its end, where held
writes are applied. -/

namespace Sys2Proof.Machine

/-! ### The waveform of the round as one operation -/

theorem frameOf_congr (P : Params) (c : ChannelId) {s u : State} (h : entry u c = entry s c) :
    frameOf P c u = frameOf P c s := by
  rw [frameOf, frameOf, h]

theorem sendAndAdvance_line (P : Params) (c : ChannelId) (s : State) :
    (sendAndAdvance P c s).line = (sendSlot P (frameOf P c s) (beginSlot P c s)).line := rfl

theorem sendSlot_lineWf (P : Params) (fr : Option Frame) (s : State) (h : lineWf s.line = true) :
    lineWf (sendSlot P fr s).line = true := by
  obtain ⟨-, -, hwf, -⟩ := emitLevels_spec (slotLevels P fr) { s with t := 0 }
  rw [sendSlot_eq]
  exact hwf h

/-- The first `n` slots of a round that was started in `s` are on the record of `u`, each with the frame that its
channel had in `s`, and the channels still to come have the entries of `s` (R152, R155). -/
structure SlotsSent (P : Params) (s : State) (n : Nat) (u : State) : Prop where
  line_wf : lineWf u.line = true
  line_length : lineLength u.line = 16000 * n
  levels : ∀ (k : ChannelId) (τ : Nat), k.val < n → τ < 16000 →
    levelAt u.line (16000 * k.val + τ) = slotLevel P (frameOf P k s) τ
  entries : ∀ k : ChannelId, n ≤ k.val → entry u k = entry s k

theorem slotsSent_zero (P : Params) (s : State) : SlotsSent P s 0 { s with line := [] } :=
  ⟨rfl, rfl, fun _ _ hk => absurd hk (Nat.not_lt_zero _), fun _ _ => rfl⟩

/-- The slot of the next channel adds its own waveform to the record and advances no channel still to come. -/
theorem SlotsSent.sendAndAdvance {P : Params} {s u : State} {c : ChannelId} (h : SlotsSent P s c.val u) :
    SlotsSent P s (c.val + 1) (sendAndAdvance P c u) where
  line_wf := sendSlot_lineWf P _ (beginSlot P c u) h.line_wf
  line_length := by
    rw [sendAndAdvance_line, sendSlot_lineLength, beginSlot_line, h.line_length, Nat.mul_add_one]
  levels k τ hk hτ := by
    rw [sendAndAdvance_line]
    rcases Nat.lt_or_ge k.val c.val with hlt | hge
    · rw [levelAt_sendSlot_old _ _ _ _ (by rw [beginSlot_line, h.line_length]; omega), beginSlot_line,
        h.levels k τ hlt hτ]
    · obtain rfl : k = c := Fin.ext (by omega)
      rw [← frameOf_congr P k (h.entries k (Nat.le_refl _)), ← h.line_length]
      exact levelAt_sendSlot_new P (frameOf P k u) (beginSlot P k u) τ
  entries k hk := by
    rw [sendAndAdvance_entry, if_neg (Fin.ne_of_val_ne (by omega)), h.entries k (by omega)]

/-- The state before the margin of a round: the four channels are sent and advanced in their order (R152). -/
def fourSlots (P : Params) (s : State) : State :=
  sendAndAdvance P 3 (sendAndAdvance P 2 (sendAndAdvance P 1 (sendAndAdvance P 0 { s with line := [] })))

theorem transmitRound_eq (P : Params) (s : State) :
    transmitRound P s = roundEnd P (emit false P.roundMarginTu (fourSlots P s)) := rfl

theorem fourSlots_slotsSent (P : Params) (s : State) : SlotsSent P s 4 (fourSlots P s) :=
  have h1 : SlotsSent P s 1 _ := (slotsSent_zero P s).sendAndAdvance (c := 0)
  have h2 : SlotsSent P s 2 _ := h1.sendAndAdvance (c := 1)
  have h3 : SlotsSent P s 3 _ := h2.sendAndAdvance (c := 2)
  h3.sendAndAdvance (c := 3)

theorem roundEnd_line (P : Params) (s : State) : (roundEnd P s).line = s.line := by
  obtain ⟨-, -, -, -, -, -, -, -, hline⟩ := roundEnd_spec P s
  exact hline

theorem roundEnd_inputs (P : Params) (s : State) : (roundEnd P s).inputs = s.inputs := by
  obtain ⟨-, -, -, -, -, -, -, hinputs, -⟩ := roundEnd_spec P s
  exact hinputs

/-- The waveform of a round: its four slots, then the low margin (R153 to R155). -/
theorem transmitRound_line (P : Params) (s : State) :
    lineWf (transmitRound P s).line = true ∧ lineLength (transmitRound P s).line = P.roundTu ∧
    (∀ (k : ChannelId) (τ : Nat), τ < 16000 →
      levelAt (transmitRound P s).line (16000 * k.val + τ) = slotLevel P (frameOf P k s) τ) ∧
    ∀ τ ≥ 64000, levelAt (transmitRound P s).line τ = false := by
  obtain ⟨hwf, hlength, hlevels, -⟩ := fourSlots_slotsSent P s
  rw [transmitRound_eq, roundEnd_line, emit_line]
  refine ⟨extendLine_wf _ _ _ hwf, by rw [extendLine_length, hlength, Params.roundTu_eq], fun k τ hτ => ?_,
    fun τ hτ => ?_⟩
  · rw [levelAt_extendLine, hlength, if_pos (by omega), hlevels k τ k.isLt hτ]
  · rw [levelAt_extendLine, hlength, if_neg (by omega), Bool.and_false]

theorem sendAndAdvance_inputs (P : Params) (c : ChannelId) (s : State) :
    (sendAndAdvance P c s).inputs = s.inputs := by
  rw [sendAndAdvance, sendSlot_eq_fields]
  rfl

theorem transmitRound_inputs (P : Params) (s : State) : (transmitRound P s).inputs = s.inputs := by
  rw [transmitRound_eq, roundEnd_inputs]
  simp only [fourSlots, emit_inputs, sendAndAdvance_inputs]

/-- Two shadows that hold nothing are the same. -/
theorem shadow_eq_of_none {s t : State} (hs : ∀ d, held s d = none) (ht : ∀ d, held t d = none) :
    t.shadow = s.shadow :=
  Vector.ext fun i hi => (ht ⟨i, hi⟩).trans (hs ⟨i, hi⟩).symm

/-- Settles O28: each slot in turn adds the waveform of its channel's frame, the margin a low stretch, and the end of
the round applies no write, since none is held. -/
theorem transmitRoundSendsAllFourChannels : Obligations.TransmitRoundSendsAllFourChannels := by
  intro s hidle hheld
  have hrest := transmitRound_atRest Config.params s
  obtain ⟨-, -, -, hch, ht, hm, hframe, -, -⟩ :=
    roundEnd_spec Config.params (emit false Config.params.roundMarginTu (fourSlots Config.params s))
  exact ⟨_, exec_transmitRound_idle s hidle, transmitRound_entry _ ⟨hidle, hheld⟩, hrest.idle, hch, ht, hm, hframe,
    shadow_eq_of_none hheld hrest.noneHeld, transmitRound_inputs _ s, transmitRound_line _ s⟩

/-- Settles O29: the operation tests the phase. -/
theorem roundStartWhileBusyIsIgnored : Obligations.RoundStartWhileBusyIsIgnored := fun _ h => if_neg h

/-! ### One edge of a round -/

theorem irOut_margin (P : Params) (s : State) (h : s.phase = .margin) : irOut P s = false := by simp [irOut, h]

/-- The last edge of a slot as the state stands at its boundary (R162). -/
theorem tick_at_slotBoundary (P : Params) (start : Bool) (s : State) (h : s.phase = .slot) (ht : s.t = 15999) :
    tick P start s = slotBoundary P { s with line := extendLine (irOut P s) 1 s.line } := by
  rw [tick_slot P start s h, slotEdge]
  exact if_neg (by simp [ht, Config.msgTu])

theorem frameOf_advance_other (P : Params) {c d : ChannelId} (h : c ≠ d) (s : State) :
    frameOf P d (advance P c s) = frameOf P d s :=
  frameOf_congr P d (by rw [advance_get, if_neg h])

theorem lt_succ_channel {c : ChannelId} (h : c.val < 3) : c < c + 1 := by
  have hnext : (c + 1).val = c.val + 1 := by omega
  exact Fin.lt_def.mpr (by omega)

/-- Settles O34: the advance of the channel just sent leaves the frame of the next. -/
theorem slotBoundaryAdvancesAndMovesOn : Obligations.SlotBoundaryAdvancesAndMovesOn := by
  intro P s start hphase ht a
  rw [tick_at_slotBoundary P start s hphase ht, slotBoundary]
  refine ⟨fun hlt => ?_, fun hlast hpos => ?_, fun hlast hzero => ?_⟩
  · have hframe := frameOf_advance_other P (lt_succ_channel hlt).ne s
    rw [if_pos hlt, ← hframe]
    simp only [a, hphase]
    rfl
  · rw [if_neg (by simp [hlast]), afterSlots, if_pos hpos]
    rfl
  · rw [if_neg (by simp [hlast]), afterSlots, if_neg (by omega)]
    rfl

/-- Settles O35: the margin adds low periods to the record, and its last edge is the end of the round. -/
theorem marginPassesAndEndsTheRound : Obligations.MarginPassesAndEndsTheRound := fun P s start h =>
  ⟨irOut_margin P s h, tick_inside_margin P start s h, fun hm => tick_last_of_margin P start s h hm.ge⟩

/-! ### The edge that ends a round -/

/-- The coming edge ends a round: it is the last of the margin, or the last of slot 3 when there is no margin (R166). -/
def AtRoundEnd (P : Params) (s : State) : Prop :=
  (s.phase = .margin ∧ s.m + 1 = P.roundMarginTu) ∨
    (s.phase = .slot ∧ s.ch = 3 ∧ s.t = 15999 ∧ P.roundMarginTu = 0)

theorem AtRoundEnd.phase_ne_idle {P : Params} {s : State} (h : AtRoundEnd P s) : s.phase ≠ .idle := by
  rcases h with ⟨hphase, -⟩ | ⟨hphase, -⟩ <;> simp [hphase]

/-- That edge is `roundEnd`, in a slot after the advance of channel 3 (R162, R163). -/
theorem AtRoundEnd.tick_eq {P : Params} {s : State} (h : AtRoundEnd P s) (start : Bool) :
    ∃ u, tick P start s = roundEnd P u ∧ u.inputs = s.inputs ∧ ∀ c, held u c = held s c ∧
      entry u c = if s.phase = .slot ∧ c = 3 then advanceEntry P (entry s c) else entry s c := by
  rcases h with ⟨hphase, hm⟩ | ⟨hphase, hch, ht, hzero⟩
  · obtain ⟨-, -, hend⟩ := marginPassesAndEndsTheRound P s start hphase
    exact ⟨_, hend hm, rfl, fun c => ⟨rfl, by simp [hphase]; rfl⟩⟩
  · obtain ⟨-, -, hend⟩ := slotBoundaryAdvancesAndMovesOn P s start hphase ht
    refine ⟨_, hend hch hzero, rfl, fun c => ⟨rfl, ?_⟩⟩
    refine (advance_get P s.ch c s).trans ?_
    by_cases hc : c = 3
    · simp [hphase, hch, hc]
    · simp [hch, hc, Ne.symm hc]

/-- Settles O36: the edge is the end of the round on the advanced entries. -/
theorem roundEndAppliesHeldWrites : Obligations.RoundEndAppliesHeldWrites := by
  intro P s start h
  obtain ⟨u, htick, hinputs, hu⟩ := AtRoundEnd.tick_eq h start
  obtain ⟨hentry, hheld, hphase, hch, ht, hm, hframe, hin, -⟩ := roundEnd_spec P u
  rw [htick]
  refine ⟨hphase, hch, ht, hm, hframe, hin.trans hinputs, by simp [busy, hphase], by simp [irOut, hphase],
    fun c => ⟨hheld c, ?_⟩⟩
  obtain ⟨hshadow, hchan⟩ := hu c
  rw [hentry, hshadow, hchan]
  cases held s c with
  | none => rfl
  | some v => rfl

/-! ### The step: the intake, then the sequencer -/

theorem takeCommand_none {p : Pins} (h : p.cmdValid = false) (s : State) : takeCommand p s = .next s := by
  simp [takeCommand, h]

theorem takeCommand_phase {p : Pins} {s t : State} (h : takeCommand p s = .next t) : t.phase = s.phase := by
  rcases takeCommand_next p s t h with ⟨-, rfl⟩ | ⟨-, c, v, rfl⟩
  · rfl
  · exact intake_phase _ c v s

/-- In a round an intake reaches only the shadow, and that only with a command (R165). -/
theorem takeCommand_busy {p : Pins} {s t : State} (hbusy : s.phase ≠ .idle) (h : takeCommand p s = .next t) :
    ∃ x, t = { s with shadow := x } ∧ (p.cmdValid = false → x = s.shadow) := by
  rcases takeCommand_next p s t h with ⟨-, rfl⟩ | ⟨hvalid, c, v, rfl⟩
  · exact ⟨_, rfl, fun _ => rfl⟩
  · exact ⟨_, intake_busy _ c v s hbusy, fun hnone => Bool.noConfusion (hvalid.symm.trans hnone)⟩

/-- Settles O30: the intake is the operation, which keeps the phase. -/
theorem stepRunsTheCommandOnThePort : Obligations.StepRunsTheCommandOnThePort := by
  intro s i hrst hvalid hdecode hwf
  obtain ⟨c, v, -, hexec⟩ := exec_command i (decodeCommand_isCommand _ i hdecode) hwf
  have hstep := step_of_takeCommand s _ hrst ((takeCommand_ok hvalid hdecode (dropPins s)).trans (hexec _))
  refine ⟨fun hidle hstart => ?_, _, hexec _, hstep⟩
  have hphase : (intake Config.params c v (dropPins s)).phase = .idle := (intake_phase _ c v _).trans hidle
  rw [hstep, hexec, hstart, tick_idle _ false _ hphase]
  rfl

/-- Settles O31: the intake leaves the block at rest, where the sequencer begins a round or does nothing. -/
theorem stepStartsARoundFromRest : Obligations.StepStartsARoundFromRest := by
  intro s s' hidle hrst htake
  have hphase : s'.phase = .idle := (takeCommand_phase htake).trans hidle
  have hstep := step_of_takeCommand s s' hrst htake
  rw [tick_idle _ _ s' hphase] at hstep
  refine ⟨fun hstart => ?_, fun hstart => ?_⟩ <;> rw [hstart] at hstep
  · exact ⟨_, hstep, rfl, rfl, irOut_slot _ (beginRound Config.params s') rfl⟩
  · exact hstep

/-- Settles O32: without a command the intake does nothing. -/
theorem stepWithoutACommandIsTheSequencer : Obligations.StepWithoutACommandIsTheSequencer := fun s hrst hvalid =>
  step_of_takeCommand s (dropPins s) hrst (takeCommand_none hvalid _)

/-- Settles O33: the intake reaches at most the shadow, and the sequencer emits one tu of the slot. -/
theorem insideASlotOnlyTimePasses : Obligations.InsideASlotOnlyTimePasses := by
  intro s hphase ht hin
  obtain ⟨ws, hws⟩ := inRange_writes _ hin
  have hstep := step_of_takeCommand s _ (inRange_rst _ hin) (hws (dropPins s)).1
  obtain ⟨x, hx, hshadow⟩ := takeCommand_busy (s := dropPins s) (by simp [hphase]) (hws _).1
  rw [hx, tick_inside_slot _ _ { dropPins s with shadow := x } hphase ht] at hstep
  refine ⟨_, hstep, ?_, hphase, rfl, rfl, rfl, rfl, rfl, hshadow, ?_⟩
  · simp only [emit_t, dropPins_t]
    bv_omega
  · rw [irOut_slot _ s hphase]
    rfl

/-- Settles O37: in a round the intake changes places with the sequencer's action, which ends the round here. -/
theorem writeAtTheRoundEndComesAfterIt : Obligations.WriteAtTheRoundEndComesAfterIt := by
  intro s p i rest hend hrst hvalid hdecode hwf
  obtain ⟨c, v, -, hexec⟩ := exec_command i (decodeCommand_isCommand p i hdecode) hwf
  replace hend : AtRoundEnd Config.params (setInputs rest s) := hend
  obtain ⟨u, htick, -, -⟩ := hend.tick_eq false
  refine ⟨tick Config.params false (setInputs rest s),
    stepWithoutACommandIsTheSequencer (setInputs (Pins.idle :: rest) s) rfl rfl, ?_, ?_⟩
  · rw [htick]
    exact (roundEnd_atRest _ u).idle
  · rw [hexec, ← tick_intake _ p.roundStart c v _ hend.phase_ne_idle]
    exact step_of_takeCommand (setInputs (p :: rest) s) _ hrst ((takeCommand_ok hvalid hdecode _).trans (hexec _))

/-! ### The timeline of a round -/

/-- In a slot the frame is the one its channel had in `s`, and the channels still to come have the entries of `s`
(R134, R162). -/
def SendsFramesOf (P : Params) (s u : State) : Prop :=
  u.phase = .slot → u.frame = frameOf P u.ch s ∧ ∀ k : ChannelId, u.ch < k → entry u k = entry s k

theorem slotBoundary_sendsFramesOf {P : Params} {s u : State} (h : SendsFramesOf P s u) (hphase : u.phase = .slot) :
    SendsFramesOf P s (slotBoundary P u) := by
  obtain ⟨-, hentries⟩ := h hphase
  unfold slotBoundary
  split
  · next hlt =>
    have hlater : ∀ k : ChannelId, u.ch < k → entry (advance P u.ch u) k = entry s k := fun k hk => by
      rw [advance_get, if_neg (ne_of_lt hk), hentries k hk]
    have hnext := lt_succ_channel hlt
    exact fun _ => ⟨frameOf_congr P (u.ch + 1) (hlater _ hnext), fun k hk => hlater k (hnext.trans hk)⟩
  · unfold afterSlots
    split
    · exact fun hslot => Phase.noConfusion hslot
    · exact fun hslot => by simp [(roundEnd_atRest P _).idle] at hslot

theorem SendsFramesOf.tick {P : Params} {s u : State} (h : SendsFramesOf P s u) (start : Bool)
    (hbusy : u.phase ≠ .idle) : SendsFramesOf P s (tick P start u) := by
  cases hphase : u.phase with
  | idle => exact absurd hphase hbusy
  | slot =>
    by_cases ht : u.t.toNat < 15999
    · rw [tick_inside_slot P start u hphase ht]
      exact h
    · rw [tick_last_of_slot P start u hphase (Nat.le_of_not_lt ht)]
      exact slotBoundary_sendsFramesOf (u := emit _ 1 u) h hphase
  | margin =>
    by_cases hm : u.m + 1 < P.roundMarginTu
    · rw [tick_inside_margin P start u hphase hm]
      exact h
    · rw [tick_last_of_margin P start u hphase (Nat.le_of_not_lt hm)]
      exact fun hslot => by simp [(roundEnd_atRest P _).idle] at hslot

/-- Every slot of a round shows the frame that its channel had when the round began. -/
theorem iterate_tick_sendsFramesOf (P : Params) (start : Bool) (s : State) (n : Nat) (hn : n < P.roundTu) :
    SendsFramesOf P s ((tick P start)^[n] (beginRound P s)) := by
  induction n with
  | zero => exact fun _ => ⟨rfl, fun _ _ => rfl⟩
  | succ n ih =>
    have hlt := Nat.lt_of_succ_lt hn
    rw [Function.iterate_succ_apply']
    exact (ih hlt).tick start (iterate_tick_atPeriod P start s n hlt).phase_ne_idle

/-- What the outputs and the position are when `n` periods of a round started in `s` are over (R168). -/
def OnTimeline (P : Params) (s : State) (n : Nat) (t : State) : Prop :=
  busy t = true ∧
  (n < 64000 → t.phase = .slot ∧ t.ch.val = n / 16000 ∧ t.t.toNat = n % 16000 ∧
    ∀ k : ChannelId, k.val = n / 16000 → irOut P t = slotLevel P (frameOf P k s) (n % 16000)) ∧
  (64000 ≤ n → t.phase = .margin ∧ t.m = n - 64000 ∧ irOut P t = false)

theorem AtPeriod.onTimeline {P : Params} {s t : State} {n : Nat} (hat : AtPeriod n t) (hframes : SendsFramesOf P s t) :
    OnTimeline P s n t := by
  refine ⟨(busy_iff t).mpr hat.phase_ne_idle, fun hn => ?_, fun hn => ?_⟩
  · obtain ⟨hphase, hch, ht⟩ := hat.1 hn
    refine ⟨hphase, hch, ht, fun k hk => ?_⟩
    obtain rfl : t.ch = k := Fin.ext (hch.trans hk.symm)
    rw [irOut_slot P t hphase, (hframes hphase).1, ht]
  · obtain ⟨hphase, hm⟩ := hat.2 hn
    exact ⟨hphase, hm, irOut_margin P t hphase⟩

theorem iterate_tick_onTimeline (P : Params) (start : Bool) (s : State) (n : Nat) (hn : n < P.roundTu) :
    OnTimeline P s n ((tick P start)^[n] (beginRound P s)) :=
  (iterate_tick_atPeriod P start s n hn).onTimeline (iterate_tick_sendsFramesOf P start s n hn)

/-- Settles O47: the position and the frame are kept along the edges, and all of them together are the operation. -/
theorem sequencerRunsTheRound : Obligations.SequencerRunsTheRound := fun P s start =>
  ⟨iterate_tick_onTimeline P start s, iterate_tick_round P start s⟩

/-! ### The machine's edges of a round -/

/-- A state that sends the same is at the same point of the timeline. -/
theorem OnTimeline.of_sentView {P : Params} {s t u : State} {n : Nat} (h : OnTimeline P s n t)
    (hview : sentView P u = sentView P t) : OnTimeline P s n u := by
  simp only [sentView, Prod.mk.injEq] at hview
  obtain ⟨hphase, hch, ht, hm, -, -, hout⟩ := hview
  unfold OnTimeline busy at h ⊢
  rwa [hphase, hch, ht, hm, hout]

theorem intakes_sentView (P : Params) (ws : List (ChannelId × Cmd)) (s : State) :
    sentView P (intakes P ws s) = sentView P s := by
  induction ws generalizing s with
  | nil => rfl
  | cons w ws ih => rw [intakes_cons, ih, intake_sentView]

theorem takeCommand_inputs {p : Pins} {s t : State} (h : takeCommand p s = .next t) : t.inputs = s.inputs := by
  rcases takeCommand_next p s t h with ⟨-, rfl⟩ | ⟨-, c, v, rfl⟩
  · rfl
  · unfold intake
    split <;> rfl

/-- The edge with a round start begins the round on what its intake leaves (R160). -/
theorem step_roundStart {s s₁ : State} {p : Pins} {ps : List Pins} (hidle : s.phase = .idle)
    (hinputs : s.inputs = p :: ps) (hstart : p.roundStart = true) (hrst : p.rst = false)
    (htake : takeCommand p (dropPins s) = .next s₁) :
    step s = .next (setInputs ps (beginRound Config.params s₁)) := by
  have hpins : nextPins s = p := by rw [nextPins, hinputs]
  have hrest : s₁.inputs = ps := by rw [takeCommand_inputs htake, dropPins_inputs, hinputs, List.tail_cons]
  rw [step_of_takeCommand s s₁ (by rw [hpins, hrst]) (by rw [hpins, htake]), hpins, hstart,
    tick_idle _ true s₁ ((takeCommand_phase htake).trans hidle), ← hrest]
  rfl

/-- A run of in-range edges through the first periods of a round is at the point of the timeline that they reach. -/
theorem run_onTimeline (ps rest : List Pins) (s : State) (hin : ∀ q ∈ ps, inRange q = true)
    (hlength : ps.length < Config.params.roundTu) :
    ∃ t, Host.Core.run Sys2Proof.core ps.length (setInputs (ps ++ rest) (beginRound Config.params s)) = .next t ∧
      OnTimeline Config.params s ps.length t := by
  obtain ⟨ws, -, hrun⟩ := run_busy ps rest (beginRound Config.params s) hin fun n hn =>
    (iterate_tick_atPeriod Config.params false s n (hn.trans hlength)).phase_ne_idle
  exact ⟨_, hrun, (iterate_tick_onTimeline Config.params false s _ hlength).of_sentView (intakes_sentView _ ws _)⟩

/-- Settles O48: after the starting edge the run is on the timeline at every period, and after the last of them at
rest. -/
theorem roundTimeline : Obligations.RoundTimeline := by
  intro s s₁ p ps hidle hinputs hstart hp hps hlength htake
  have hstep := step_roundStart hidle hinputs hstart (inRange_rst p hp) htake
  refine ⟨fun n hn => ?_, ?_⟩
  · have htaken : (ps.take n).length = n := List.length_take_of_le (by omega)
    obtain ⟨t, hrun, hat⟩ := run_onTimeline (ps.take n) (ps.drop n) s₁ (fun q hq => hps q (List.mem_of_mem_take hq))
      (by rwa [htaken])
    rw [htaken] at hrun hat
    rw [List.take_append_drop] at hrun
    exact ⟨t, (run_succ_of_step n _ _ hstep).trans hrun, hat⟩
  · obtain ⟨ws, -, hrun⟩ := run_round ps [] s₁ hps hlength
    rw [List.append_nil, hlength] at hrun
    have hphase := (intakes_phase Config.params ws _).trans (transmitRound_atRest Config.params s₁).idle
    exact ⟨_, (run_succ_of_step _ _ _ hstep).trans hrun, by simp [busy, hphase]⟩

/-- Settles O49: quiet edges are the sequencer's actions, and those of a whole round are the operation. -/
theorem quietEdgesRunTheRound : Obligations.QuietEdgesRunTheRound := by
  intro s p ps hidle hinputs hstart hp hps hlength
  have hvalid : p.cmdValid = false := by
    simp only [quiet, Bool.and_eq_true, Bool.not_eq_true'] at hp
    exact hp.2
  have hstep := step_roundStart hidle hinputs hstart (inRange_rst p (quiet_inRange p hp))
    (takeCommand_none hvalid (dropPins s))
  have hrun := run_quiet ps [] (setInputs ps (beginRound Config.params (dropPins s))) (List.append_nil ps).symm hps
    fun n hn => (iterate_tick_atPeriod Config.params false (setInputs ps (dropPins s)) n
      (hlength ▸ hn)).phase_ne_idle
  refine ⟨_, exec_transmitRound_idle (setInputs [] s) hidle, (run_succ_of_step _ _ _ hstep).trans ?_⟩
  rw [← hlength, hrun, hlength]
  exact congrArg _ (iterate_tick_round Config.params false (setInputs [] s))

/-! ### Runs of any length -/

theorem run_add_of_run (a b : Nat) (s t : State) (h : Host.Core.run Sys2Proof.core a s = .next t) :
    Host.Core.run Sys2Proof.core (a + b) s = Host.Core.run Sys2Proof.core b t := by
  induction a generalizing s with
  | zero =>
    cases h
    rw [Nat.zero_add]
  | succ a ih =>
    rw [Nat.add_right_comm]
    simp only [Host.Core.run] at h ⊢
    split at h
    · exact ih _ h
    · cases h
    · cases h

theorem AtRest.intakes {s : State} (h : AtRest s) (P : Params) (ws : List (ChannelId × Cmd)) :
    AtRest (intakes P ws s) := by
  induction ws generalizing s with
  | nil => exact h
  | cons w ws ih =>
    refine ih (s := intake P w.1 w.2 s) ⟨(intake_phase P _ _ s).trans h.idle, fun d => ?_⟩
    rw [intake_idle P _ _ s h.idle, commandWrite_held, h.noneHeld]

/-- The edge of a block at rest takes in its writes, and begins a round if it has a round start (R159, R160). -/
theorem step_atRest (p : Pins) (rest : List Pins) {s : State} (hs : AtRest s) (hp : inRange p = true) :
    ∃ u, AtRest u ∧ execAll (writesOf p) (setInputs [] s) = .next (setInputs [] u) ∧
      step (setInputs (p :: rest) s) =
        .next (setInputs rest (if p.roundStart then beginRound Config.params u else u)) := by
  obtain ⟨ws, hws⟩ := inRange_writes p hp
  refine ⟨_, hs.intakes Config.params ws, ?_, ?_⟩
  · rw [(hws _).2, intakes_setInputs]
  · rw [step_inRange p rest s hp ws fun u => (hws u).1, tick_idle _ _ _ (hs.intakes _ ws).idle]

/-- A run that ends inside a round does not end at rest. -/
theorem run_short_busy {ps : List Pins} {s t : State} (hin : ∀ q ∈ ps, inRange q = true)
    (hlength : ps.length < Config.params.roundTu)
    (hrun : Host.Core.run Sys2Proof.core ps.length (setInputs ps (beginRound Config.params s)) = .next t) :
    t.phase ≠ .idle := by
  obtain ⟨u, hrun', hbusy, -⟩ := run_onTimeline ps [] s hin hlength
  rw [List.append_nil, hrun] at hrun'
  cases hrun'
  exact (busy_iff t).mp hbusy

/-- A run of in-range edges from rest to rest is the list of operations that its port values stand for: by induction on
the bound of that list, one edge at a time at rest and one round at a time (R170). -/
theorem run_refines_operations (n : Nat) (ps : List Pins) (s t : State) (hn : ps.length ≤ n) (hs : AtRest s)
    (hin : ∀ q ∈ ps, inRange q = true)
    (hrun : Host.Core.run Sys2Proof.core ps.length (setInputs ps s) = .next t) (ht : t.phase = .idle) :
    execAll (operationsOf Config.params n ps) (setInputs [] s) = .next t := by
  induction n generalizing ps s with
  | zero =>
    obtain rfl := List.eq_nil_of_length_eq_zero (Nat.le_zero.mp hn)
    exact hrun
  | succ n ih =>
    match ps with
    | [] => exact hrun
    | p :: ps =>
      obtain ⟨hp, hps⟩ := List.forall_mem_cons.mp hin
      have hle : ps.length ≤ n := Nat.le_of_succ_le_succ hn
      obtain ⟨u, hu, hwrites, hstep⟩ := step_atRest p ps hs hp
      rw [List.length_cons, run_succ_of_step _ _ _ hstep] at hrun
      cases hstart : p.roundStart with
      | false =>
        simp only [operationsOf, hstart, Bool.false_eq_true, if_false] at hrun ⊢
        rw [execAll_append _ _ _ _ hwrites]
        exact ih ps u hle hu hps hrun
      | true =>
        simp only [operationsOf, hstart, if_true] at hrun ⊢
        have hlong : Config.params.roundTu ≤ ps.length :=
          Nat.le_of_not_lt fun hshort => run_short_busy hps hshort hrun ht
        obtain ⟨vs, hvs, hround⟩ := run_round (ps.take Config.params.roundTu) (ps.drop Config.params.roundTu) u
          (fun q hq => hps q (List.mem_of_mem_take hq)) (List.length_take_of_le hlong)
        rw [List.take_append_drop, List.length_take_of_le hlong] at hround
        rw [← Nat.add_sub_of_le hlong, run_add_of_run _ _ _ _ hround, ← List.length_drop] at hrun
        have hexec : exec .transmitRound (setInputs [] u) =
            .next (setInputs [] (transmitRound Config.params u)) := by
          rw [exec_transmitRound_idle (setInputs [] u) hu.idle, transmitRound_setInputs]
        rw [execAll_append _ _ _ _ hwrites, execAll_cons_of_next _ _ _ _ hexec,
          execAll_append _ _ _ _ (hvs _), intakes_setInputs]
        exact ih _ _ (by rw [List.length_drop]; omega) ((transmitRound_atRest _ u).intakes _ vs)
          (fun q hq => hps q (List.mem_of_mem_drop hq)) hrun

/-- Settles O51: the list of operations is bounded by the length of the inputs. -/
theorem everyRunRefinesOperations : Obligations.EveryRunRefinesOperations := fun s t hidle hheld hin hrun ht =>
  run_refines_operations s.inputs.length s.inputs s t le_rfl ⟨hidle, hheld⟩ hin hrun ht

end Sys2Proof.Machine

/-! PROOFS. The clock edge at which the block is held in reset (R200, R202). -/

namespace Sys2Proof.Machine

/-! ### The reset edge -/

@[simp] theorem resetEdge_busy (s : State) : busy (resetEdge s) = busy State.reset := rfl

@[simp] theorem resetEdge_irOut (P : Params) (s : State) : irOut P (resetEdge s) = irOut P State.reset := rfl

/-- Settles O38: the step is the reset edge, which leaves the values of `State.reset` and drops only the inputs of its own
edge; the status view shows the entry itself. -/
theorem resetTakesEverythingToItsResetValue : Obligations.ResetTakesEverythingToItsResetValue := by
  intro s hrst
  obtain ⟨hentries, hphase, hch, ht, hm, hframe, hbusy, hir⟩ := resetStateValues
  refine ⟨resetEdge (dropPins s), step_of_reset s hrst, fun c => ?_, hphase, hch, ht, hm, hframe,
    (resetEdge_busy _).trans hbusy, (resetEdge_irOut _ _).trans hir, resetEdge_inputs _⟩
  obtain ⟨harmed, htoggle, hsends, hheld⟩ := hentries c
  exact ⟨harmed, htoggle, hsends, hheld, harmed, htoggle, hsends⟩

end Sys2Proof.Machine
